-- ==== Sys2Proof/Word.lean ====
section
/-! DEFINITION. The machine's word types: bytes, doublewords and the two access widths (spec/20_memory.md R30). -/

namespace Sys2Proof

/-- One byte of memory or of the instruction stream (R30). -/
abbrev Byte := BitVec 8

/-- A 32-bit register, address or doubleword (R11, R15). -/
abbrev Word := BitVec 32

/-- The only access widths: one byte and a doubleword (R30). -/
inductive Width where
  | byte
  | dword
  deriving DecidableEq, Repr

/-- The number of bytes of an access: the payload `n` of R130. -/
def Width.bytes : Width → Nat
  | .byte => 1
  | .dword => 4

end Sys2Proof
end

