-- ==== Sys2Proof/Syntax.lean ====
section
/-! DEFINITION. The instruction set as data: registers, operand forms, and the nine instructions of
spec/30_encoding.md R58. -/

namespace Sys2Proof

/-- The closed enumeration of R11, in the order of its indices 0 to 7. A register index out of range cannot be
written (R14, R140). -/
inductive Reg where
  | eax | ecx | edx | ebx | esp | ebp | esi | edi
  deriving DecidableEq, Repr

/-- The memory forms of an `r/m32` operand (R54, R55). -/
inductive MemOperand where
  /-- mode 0, rm neither 4 nor 5: `[base]`. -/
  | base (b : Reg)
  /-- mode 1, rm not 4: `[base + sext_8(disp8)]`. -/
  | baseDisp8 (b : Reg) (disp : Byte)
  /-- mode 2, rm not 4: `[base + disp32]`. -/
  | baseDisp32 (b : Reg) (disp : Word)
  /-- mode 0, rm 5: `[disp32]`. -/
  | absolute (disp : Word)
  deriving DecidableEq, Repr

/-- An `r/m32` operand: a register (mode 3) or a doubleword in memory (R83). -/
inductive RM32 where
  | reg (r : Reg)
  | mem (m : MemOperand)
  deriving DecidableEq, Repr

/-- The nine instructions of R58, one constructor per row of spec/opcode_table.json. -/
inductive Instr where
  /-- 0x01 `add r/m32, r32` (R100). -/
  | addRm32R32 (d : RM32) (r : Reg)
  /-- 0x83 /5 `sub r/m32, imm8` (R101). -/
  | subRm32Imm8 (d : RM32) (imm : Byte)
  /-- 0x89 `mov r/m32, r32` (R110). -/
  | movRm32R32 (d : RM32) (r : Reg)
  /-- 0x8B `mov r32, r/m32` (R111). -/
  | movR32Rm32 (r : Reg) (d : RM32)
  /-- 0xB8 to 0xBF `mov r32, imm32` (R112). -/
  | movR32Imm32 (r : Reg) (imm : Word)
  /-- 0xC7 `mov r/m32, imm32` (R113); its ModRM `reg` field is no part of the instruction (R63). -/
  | movRm32Imm32 (d : RM32) (imm : Word)
  /-- 0xE9 `jmp rel32` (R120). -/
  | jmpRel32 (rel : Word)
  /-- 0xEB `jmp rel8` (R121). -/
  | jmpRel8 (rel : Byte)
  /-- 0xFF /0 `inc r/m32` (R102). -/
  | incRm32 (d : RM32)
  deriving DecidableEq, Repr

end Sys2Proof
end

