-- ==== Sys2Proof/WellFormed.lean ====
section
/-! DEFINITION. Which instructions have an encoding: no ESP base, and no EBP base without a displacement
(spec/30_encoding.md R53, R55; spec/10_state.md R12). -/

namespace Sys2Proof

/-- A memory form the ModRM byte can express: rm 4 with mode 0, 1 or 2 is a SIB shape (R53), and rm 5 with mode 0 is
the absolute form (R54). -/
def MemOperand.wellFormed : MemOperand → Bool
  | .base b => b != .esp && b != .ebp
  | .baseDisp8 b _ => b != .esp
  | .baseDisp32 b _ => b != .esp
  | .absolute _ => true

/-- Every register is a legal register-direct operand, ESP among them (R53, R64). -/
def RM32.wellFormed : RM32 → Bool
  | .reg _ => true
  | .mem m => m.wellFormed

/-- An instruction that R58's encodings can express. -/
def Instr.wellFormed : Instr → Bool
  | .addRm32R32 d _ => d.wellFormed
  | .subRm32Imm8 d _ => d.wellFormed
  | .movRm32R32 d _ => d.wellFormed
  | .movR32Rm32 _ d => d.wellFormed
  | .movR32Imm32 _ _ => true
  | .movRm32Imm32 d _ => d.wellFormed
  | .jmpRel32 _ => true
  | .jmpRel8 _ => true
  | .incRm32 d => d.wellFormed

end Sys2Proof
end

