-- ==== Sys2Proof/Decode.lean ====
section
/-! DEFINITION. The decoder of spec/30_encoding.md, total on any bytes, and after it an encoder written from the same
tables. Also the byte-order, bit-field and sign-extension helpers the machine shares with it. -/

namespace Sys2Proof

/-- The doubleword whose little-endian bytes are `b0` (lowest address) to `b3` (R31, R32). -/
def le32 (b0 b1 b2 b3 : Byte) : Word := b3 ++ b2 ++ b1 ++ b0

/-- Byte `i` of a doubleword, `(v >> (8*i)) mod 256` (R31). -/
def byteOf (v : Word) (i : Nat) : Byte := v.extractLsb' (8 * i) 8

/-- The four little-endian bytes of a doubleword, lowest address first (R31). -/
def leBytes (v : Word) : List Byte := [byteOf v 0, byteOf v 1, byteOf v 2, byteOf v 3]

/-- `sext_8` (R8): the sign extension of a byte to 32 bits. -/
def sext8 (b : Byte) : Word := b.signExtend 32

/-- The register an index names (R11). -/
def Reg.ofBits (b : BitVec 3) : Reg :=
  if b = 0#3 then .eax else if b = 1#3 then .ecx else if b = 2#3 then .edx else if b = 3#3 then .ebx
  else if b = 4#3 then .esp else if b = 5#3 then .ebp else if b = 6#3 then .esi else .edi

/-- The index of a register: its position in the enumeration (R11). -/
def Reg.bits : Reg → BitVec 3
  | .eax => 0#3 | .ecx => 1#3 | .edx => 2#3 | .ebx => 3#3
  | .esp => 4#3 | .ebp => 5#3 | .esi => 6#3 | .edi => 7#3

/-- `mode`, bits 7:6 of the ModRM byte (R52). -/
def modeField (b : Byte) : BitVec 2 := b.extractLsb' 6 2

/-- `reg`, bits 5:3 of the ModRM byte (R52). -/
def regField (b : Byte) : BitVec 3 := b.extractLsb' 3 3

/-- `rm`, bits 2:0 of the ModRM byte (R52). -/
def rmField (b : Byte) : BitVec 3 := b.extractLsb' 0 3

/-- Why the decoder stops. `Machine/Fetch.lean` turns each into the fault of R130 that it stands for. -/
inductive DecodeError where
  /-- The bytes end inside an access of width `n` at instruction byte `k`: `BoundsFault(fetch, pc+k, n)`. -/
  | outside (k : Nat) (n : Width)
  /-- A SIB shape (R53): `UnimplementedAddressing(mode, rm)`. -/
  | addressing (mode : BitVec 2) (rm : BitVec 3)
  /-- No such opcode, or no such extension (R61, R62): `UnimplementedOpcode(op, ext)`. -/
  | opcode (op : Byte) (ext : Option (BitVec 3))
  deriving DecidableEq, Repr

/-- `Fetch(k, 1)` over the instruction's bytes (R36). -/
def fetchByte (bs : List Byte) (k : Nat) : Except DecodeError Byte :=
  match bs[k]? with
  | some b => .ok b
  | none => .error (.outside k .byte)

/-- `Fetch(k, 4)` over the instruction's bytes, little-endian (R32, R36). All four bytes must exist. -/
def fetchDword (bs : List Byte) (k : Nat) : Except DecodeError Word :=
  match bs[k]?, bs[k + 1]?, bs[k + 2]?, bs[k + 3]? with
  | some b0, some b1, some b2, some b3 => .ok (le32 b0 b1 b2 b3)
  | _, _, _, _ => .error (.outside k .dword)

/-- What `DecodeModRM` returns (R57): the `reg` field and the operand with its displacement. -/
structure Descriptor where
  reg : BitVec 3
  rm : RM32
  deriving DecidableEq, Repr

/-- The ModRM length `M`: 1, 2 or 5 (R55). -/
def RM32.modrmLength : RM32 → Nat
  | .reg _ => 1
  | .mem (.base _) => 1
  | .mem (.baseDisp8 _ _) => 2
  | .mem (.baseDisp32 _ _) => 5
  | .mem (.absolute _) => 5

/-- `DecodeModRM` (R57), in R57's order of tests: the ModRM byte, the SIB test, then the displacement. -/
def decodeModRM (bs : List Byte) : Except DecodeError Descriptor := do
  let b ← fetchByte bs 1
  let mode := modeField b
  let rm := rmField b
  if mode ≠ 3#2 ∧ rm = 4#3 then
    .error (.addressing mode rm)
  else if mode = 0#2 ∧ rm = 5#3 then
    let disp ← fetchDword bs 2
    return ⟨regField b, .mem (.absolute disp)⟩
  else if mode = 2#2 then
    let disp ← fetchDword bs 2
    return ⟨regField b, .mem (.baseDisp32 (Reg.ofBits rm) disp)⟩
  else if mode = 1#2 then
    let disp ← fetchByte bs 2
    return ⟨regField b, .mem (.baseDisp8 (Reg.ofBits rm) disp)⟩
  else if mode = 0#2 then
    return ⟨regField b, .mem (.base (Reg.ofBits rm))⟩
  else
    return ⟨regField b, .reg (Reg.ofBits rm)⟩

/-- The opcode bytes 0xB8 to 0xBF and no other: bits 7:3 are 10111 (R60). -/
def isMovR32Imm32 (op : Byte) : Bool := op.extractLsb' 3 5 == 0b10111#5

/-- The dispatcher's decode (R58, R80): from an instruction's bytes, first byte first, to the instruction or to the
first error in the order of R133, places 1 to 7. It looks at no byte past the instruction's last. -/
def decode (bs : List Byte) : Except DecodeError Instr := do
  let op ← fetchByte bs 0
  if op = 0x01#8 then
    let d ← decodeModRM bs
    return .addRm32R32 d.rm (Reg.ofBits d.reg)
  else if op = 0x83#8 then
    let d ← decodeModRM bs
    if d.reg = 5#3 then
      let imm ← fetchByte bs (1 + d.rm.modrmLength)
      return .subRm32Imm8 d.rm imm
    else .error (.opcode op (some d.reg))
  else if op = 0x89#8 then
    let d ← decodeModRM bs
    return .movRm32R32 d.rm (Reg.ofBits d.reg)
  else if op = 0x8B#8 then
    let d ← decodeModRM bs
    return .movR32Rm32 (Reg.ofBits d.reg) d.rm
  else if isMovR32Imm32 op then
    let imm ← fetchDword bs 1
    return .movR32Imm32 (Reg.ofBits (rmField op)) imm
  else if op = 0xC7#8 then
    let d ← decodeModRM bs
    let imm ← fetchDword bs (1 + d.rm.modrmLength)
    return .movRm32Imm32 d.rm imm
  else if op = 0xE9#8 then
    let rel ← fetchDword bs 1
    return .jmpRel32 rel
  else if op = 0xEB#8 then
    let rel ← fetchByte bs 1
    return .jmpRel8 rel
  else if op = 0xFF#8 then
    let d ← decodeModRM bs
    if d.reg = 0#3 then return .incRm32 d.rm
    else .error (.opcode op (some d.reg))
  else .error (.opcode op none)

/-! ### Lengths and the encoder -/

/-- The instruction's length `L` in bytes (R16, R66). -/
def Instr.length : Instr → Nat
  | .addRm32R32 d _ => 1 + d.modrmLength
  | .subRm32Imm8 d _ => 2 + d.modrmLength
  | .movRm32R32 d _ => 1 + d.modrmLength
  | .movR32Rm32 _ d => 1 + d.modrmLength
  | .movR32Imm32 _ _ => 5
  | .movRm32Imm32 d _ => 5 + d.modrmLength
  | .jmpRel32 _ => 5
  | .jmpRel8 _ => 2
  | .incRm32 d => 1 + d.modrmLength

/-- The ModRM byte with the given fields (R51, R52). -/
def modrmByte (mode : BitVec 2) (reg rm : BitVec 3) : Byte := mode ++ reg ++ rm

/-- The ModRM byte and displacement of an operand, with `reg` in bits 5:3 (R55). -/
def encodeModRM (reg : BitVec 3) : RM32 → List Byte
  | .reg r => [modrmByte 3#2 reg r.bits]
  | .mem (.base b) => [modrmByte 0#2 reg b.bits]
  | .mem (.baseDisp8 b disp) => [modrmByte 1#2 reg b.bits, disp]
  | .mem (.baseDisp32 b disp) => modrmByte 2#2 reg b.bits :: leBytes disp
  | .mem (.absolute disp) => modrmByte 0#2 reg 5#3 :: leBytes disp

/-- The opcode byte 0xB8 + r (R51, format OI). -/
def movImmOpcode (r : Reg) : Byte := 0b10111#5 ++ r.bits

/-- The bytes of an instruction (R51, R58). `spare` fills the ModRM `reg` field that 0xC7 does not examine (R63); the
other instructions do not use it. -/
def Instr.encodeWith (spare : BitVec 3) : Instr → List Byte
  | .addRm32R32 d r => 0x01#8 :: encodeModRM r.bits d
  | .subRm32Imm8 d imm => 0x83#8 :: (encodeModRM 5#3 d ++ [imm])
  | .movRm32R32 d r => 0x89#8 :: encodeModRM r.bits d
  | .movR32Rm32 r d => 0x8B#8 :: encodeModRM r.bits d
  | .movR32Imm32 r imm => movImmOpcode r :: leBytes imm
  | .movRm32Imm32 d imm => 0xC7#8 :: (encodeModRM spare d ++ leBytes imm)
  | .jmpRel32 rel => 0xE9#8 :: leBytes rel
  | .jmpRel8 rel => [0xEB#8, rel]
  | .incRm32 d => 0xFF#8 :: encodeModRM 0#3 d

/-- The encoding an assembler writes: 0 in the field 0xC7 ignores (R63). -/
def Instr.encode (i : Instr) : List Byte := i.encodeWith 0#3

/-! ### The opcode table's words -/

/-- A row of spec/opcode_table.json: a match and a mask over `W = 256 * byte0 + byte1` (R67). -/
structure OpcodeRow where
  pattern : BitVec 16
  mask : BitVec 16
  deriving DecidableEq, Repr

/-- R67's test: the row matches `W`. -/
def OpcodeRow.selects (row : OpcodeRow) (w : BitVec 16) : Bool := w &&& row.mask == row.pattern

/-- The instruction's row of spec/opcode_table.json. -/
def Instr.row : Instr → OpcodeRow
  | .addRm32R32 _ _ => ⟨0x0100#16, 0xFF00#16⟩
  | .subRm32Imm8 _ _ => ⟨0x8328#16, 0xFF38#16⟩
  | .movRm32R32 _ _ => ⟨0x8900#16, 0xFF00#16⟩
  | .movR32Rm32 _ _ => ⟨0x8B00#16, 0xFF00#16⟩
  | .movR32Imm32 _ _ => ⟨0xB800#16, 0xF800#16⟩
  | .movRm32Imm32 _ _ => ⟨0xC700#16, 0xFF00#16⟩
  | .jmpRel32 _ => ⟨0xE900#16, 0xFF00#16⟩
  | .jmpRel8 _ => ⟨0xEB00#16, 0xFF00#16⟩
  | .incRm32 _ => ⟨0xFF00#16, 0xFF38#16⟩

/-- The longest instruction, in bytes (R50, R66). -/
def maxInstrBytes : Nat := 10

/-- The `n` bytes of a word of `8 * n` bits as R67 lays them out: byte 0, the lowest address, in the TOP eight bits. -/
def tableBytes (w : Nat) : Nat → List Byte
  | 0 => []
  | n + 1 => BitVec.ofNat 8 (w / 2 ^ (8 * n)) :: tableBytes w n

/-- The bytes of an instruction whose first `nbits` bits are `w`, numbered as the table numbers them (R67; log 5);
every later byte is 0, up to the longest instruction. -/
def tableWordBytes (nbits w : Nat) : List Byte :=
  let head := tableBytes w (nbits / 8)
  head ++ List.replicate (maxInstrBytes - head.length) 0#8

/-- What the decoder reads from a table row's word. -/
def decodeTableWord (nbits w : Nat) : Option Instr :=
  match decode (tableWordBytes nbits w) with
  | .ok i => some i
  | .error _ => none

end Sys2Proof
end

