-- ==== Sys2Proof/Config.lean ====
section
/-! DEFINITION. The parameters of spec/00_scope.md R4, with the values `State.reset` takes. Statements never rest on
these values: they hold for every memory size, because the size is the length of the memory value (log 1).
Beside them stands the one free value, of the dump (log 3). -/

namespace Sys2Proof

/-- `DUMP_HEX_CASE` (R4, R22, D12): the letter case of the digits a to f in the dump. -/
inductive HexCase where
  | lower
  | upper
  deriving DecidableEq, Repr

/-- `MEM_SIZE` for `State.reset`. DESIGN CHOICE (log 1): R4 leaves it open; 0x10000 is the size of the spec's
reference-platform programs P1 and P2. Unsafe: a statement resting on this number says nothing of other sizes. -/
def Config.memSize : Nat := 0x10000

/-- The upper end of `MEM_SIZE`'s range (R4). -/
def Config.maxMemSize : Nat := 2 ^ 32

/-- `INIT_EIP` for `State.reset`: the reference value of R161. DESIGN CHOICE (log 2). -/
def Config.initEip : Word := 0x7C00#32

/-- `INIT_ESP` for `State.reset`: the reference value of R161. DESIGN CHOICE (log 2). -/
def Config.initEsp : Word := 0x7C00#32

/-- `LOAD_ORIGIN` of the reference platform (R161). DESIGN CHOICE (log 2). -/
def Config.loadOrigin : Nat := 0x7C00

/-- `DUMP_HEX_CASE`'s default (D12). -/
def Config.hexCase : HexCase := .lower

/-- A free value (log 3): the tenth line of a dump of the given nine values, printed in the given case. R22 and D12 fix
ten lines, and R22 writes out nine. It has no body, so no proof can tell what it says. -/
opaque Config.dumpTenthLine : HexCase → List Word → String

end Sys2Proof
end

