-- ==== Sys2Proof/Machine/State.lean ====
section
/-! DEFINITION. The architectural state (spec/10_state.md R10), the faults (spec/60_exceptions.md R130), the refusals,
and the state after reset (R24, spec/70_reset_and_hazards.md R160). -/

namespace Sys2Proof.Machine

/-- What an access was for: the payload `kind` of a bounds fault (R130). -/
inductive AccessKind where
  | fetch
  | read
  | write
  deriving DecidableEq, Repr

/-- The three faults `Step` returns (R130). Each leaves the whole state, `pc` included, as it was (R134). All are safe:
they are the hardware's own outcomes. -/
inductive Fault where
  /-- Code 1, `BoundsFault(kind, addr, n)` (R131). Raised by every fetch, operand read and operand write outside
  memory; `addr` is the unbounded start address of the access. Safe: the spec's outcome. -/
  | bounds (kind : AccessKind) (addr : Nat) (n : Width)
  /-- Code 2, `UnimplementedAddressing(mode, rm)` (R132). Raised by the decoding of a SIB-shaped ModRM byte in any of
  the six ModRM instructions. Safe: the spec's outcome. -/
  | unimplementedAddressing (mode : BitVec 2) (rm : BitVec 3)
  /-- Code 3, `UnimplementedOpcode(op, ext)` (R135). Raised by the dispatcher on an opcode byte, or on a group
  extension of 0x83 or 0xFF, with no handler. Safe: the spec's outcome. -/
  | unimplementedOpcode (op : Byte) (ext : Option (BitVec 3))
  deriving DecidableEq, Repr

/-- What the model gives no meaning. No step is ever refused. -/
inductive Refusal where
  /-- Raised only by an arm of `exec` that has no meaning yet; there is none. Safe. -/
  | notModelled (mnemonic : String)
  /-- Raised by `load` on an image that does not fit in memory, which is no launch of this hardware (R162, D15).
  Safe: nothing follows from it. -/
  | imageDoesNotFit
  /-- Raised by `launch` on a parameter outside R4's range, which is no launch of this hardware (R4, R167; log 4).
  Safe: nothing follows from it. -/
  | parameterOutOfRange
  deriving DecidableEq, Repr

/-- The eight general registers (R11). None is hard-wired and none is banked (R12). -/
structure RegFile where
  eax : Word
  ecx : Word
  edx : Word
  ebx : Word
  esp : Word
  ebp : Word
  esi : Word
  edi : Word
  deriving DecidableEq, Repr

/-- The byte buffer `MEM` (R21): its length, `MEM_SIZE`, which no step changes (log 1), and the bytes that differ from
the reset byte, by strictly rising address (log 10). -/
structure Memory where
  size : Nat
  cells : List Host.Cell
  deriving DecidableEq, Repr

/-- The complete architectural state: exactly the four things of R10. -/
structure State where
  /-- `x[0]` to `x[7]`. -/
  regs : RegFile
  /-- `FLAGS`, storage only (R18). -/
  flags : Word
  /-- `MEM[0]` to `MEM[MEM_SIZE-1]`. -/
  mem : Memory
  /-- `pc`, the address of the next opcode byte (R15). -/
  pc : Word
  deriving DecidableEq, Repr

/-- `Reset(MEM_SIZE, INIT_EIP, INIT_ESP)`: every register 0 but ESP, FLAGS 0, every byte 0, `pc` at `INIT_EIP`
(R24, R160). DESIGN CHOICE (log 12): a `memSize` outside R4's range, 0 or above 2^32, is not refused here but makes a
memory of that size; `launch` refuses it. -/
def State.construct (memSize : Nat) (initEip initEsp : Word) : State where
  regs := { eax := 0#32, ecx := 0#32, edx := 0#32, ebx := 0#32, esp := initEsp, ebp := 0#32, esi := 0#32, edi := 0#32 }
  flags := 0#32
  mem := { size := memSize, cells := [] }
  pc := initEip

/-- The machine right after `Reset` with the parameters of `Config` (R160, R161; log 1, log 2), before any `Load`. -/
def State.reset : State := State.construct Config.memSize Config.initEip Config.initEsp

end Sys2Proof.Machine
end

