-- ==== Sys2Proof/Machine/Ops.lean ====
section
/-! DEFINITION. The named operations over registers, `pc` and memory, and the raising of a fault
(spec/00_scope.md R8, spec/10_state.md R13 and R16, spec/20_memory.md R30 to R36). -/

namespace Sys2Proof.Machine

/-- What an operation or a step answers. -/
abbrev Result := Host.Outcome State Fault Refusal

/-! ### Faults -/

/-- `raise <Fault>(info)` (R8, R136): the step ends with that fault value. This is all that taking an exception is in
this hardware: no state is changed, nothing is saved, no handler is entered (R134, R136). -/
def raise {α : Type} (f : Fault) : Except Fault α := .error f

/-- The fault codes of R130. -/
def Fault.code : Fault → Nat
  | .bounds _ _ _ => 1
  | .unimplementedAddressing _ _ => 2
  | .unimplementedOpcode _ _ => 3

/-- The outcome of a step that has written its result, or has raised a fault (R82). -/
def finish : Except Fault State → Result
  | .ok s => .next s
  | .error f => .fault f

/-! ### Registers -/

/-- `read_register(index)` (R13). -/
def RegFile.get (f : RegFile) : Reg → Word
  | .eax => f.eax | .ecx => f.ecx | .edx => f.edx | .ebx => f.ebx
  | .esp => f.esp | .ebp => f.ebp | .esi => f.esi | .edi => f.edi

/-- `write_register(index, value)` (R13). -/
def RegFile.set (f : RegFile) (r : Reg) (v : Word) : RegFile :=
  match r with
  | .eax => { f with eax := v } | .ecx => { f with ecx := v }
  | .edx => { f with edx := v } | .ebx => { f with ebx := v }
  | .esp => { f with esp := v } | .ebp => { f with ebp := v }
  | .esi => { f with esi := v } | .edi => { f with edi := v }

/-- `x[r]`. -/
def State.reg (s : State) (r : Reg) : Word := s.regs.get r

/-- `x[r] <- v`. -/
def State.setReg (s : State) (r : Reg) (v : Word) : State := { s with regs := s.regs.set r v }

/-- `pc <- target`; a 32-bit value, so the target is taken modulo 2^32 (R17, R123). -/
def State.setPc (s : State) (target : Word) : State := { s with pc := target }

/-- `pc <- (pc + len) mod 2^32` (R16). -/
def State.advance (s : State) (len : Nat) : State := s.setPc (s.pc + BitVec.ofNat 32 len)

/-! ### Bytes of memory -/

/-- What a byte that nothing has written reads as: its reset value (R24). -/
def unwrittenByte : Byte := 0#8

/-- The byte listed at an address, or the unwritten one. -/
def cellAt : List Host.Cell → Nat → Byte
  | [], _ => unwrittenByte
  | (b, v) :: rest, a => if b = a then v else cellAt rest a

/-- The list without an address. -/
def eraseCell : List Host.Cell → Nat → List Host.Cell
  | [], _ => []
  | (b, v) :: rest, a => if b = a then eraseCell rest a else (b, v) :: eraseCell rest a

/-- The list with an entry put in its place by address. -/
def insertCell : List Host.Cell → Nat → Byte → List Host.Cell
  | [], a, v => [(a, v)]
  | (b, w) :: rest, a, v => if a < b then (a, v) :: (b, w) :: rest else (b, w) :: insertCell rest a v

/-- The list with a byte written, in canonical form: the unwritten byte is never listed. -/
def writeCell (cells : List Host.Cell) (a : Nat) (v : Byte) : List Host.Cell :=
  if v = unwrittenByte then eraseCell cells a else insertCell (eraseCell cells a) a v

/-- Addresses strictly rise, starting above `low` when it is given, and stay below `size`; no entry is the unwritten
byte. -/
def canonicalCells (size : Nat) : Option Nat → List Host.Cell → Bool
  | _, [] => true
  | low, (a, v) :: rest =>
    (match low with | none => true | some l => decide (l < a)) && decide (a < size) && (v != unwrittenByte)
      && canonicalCells size (some a) rest

/-- The memory is in canonical form and its size is in R4's range. -/
def Memory.wf (m : Memory) : Bool :=
  decide (1 ≤ m.size) && decide (m.size ≤ Config.maxMemSize) && canonicalCells m.size none m.cells

/-- `MEM[a]`, with no bounds check: every caller has checked `a`. -/
def Memory.byteAt (m : Memory) (a : Nat) : Byte := cellAt m.cells a

/-- `MEM[a] <- v`, with no bounds check: every caller has checked `a`. -/
def Memory.setByte (m : Memory) (a : Nat) (v : Byte) : Memory := { m with cells := writeCell m.cells a v }

/-- The little-endian doubleword at `a` (R31), with no bounds check. -/
def Memory.dwordAt (m : Memory) (a : Nat) : Word :=
  le32 (m.byteAt a) (m.byteAt (a + 1)) (m.byteAt (a + 2)) (m.byteAt (a + 3))

/-- The four little-endian bytes of `v` written at `a` (R31), with no bounds check. -/
def Memory.setDword (m : Memory) (a : Nat) (v : Word) : Memory :=
  (((m.setByte a (byteOf v 0)).setByte (a + 1) (byteOf v 1)).setByte (a + 2) (byteOf v 2)).setByte (a + 3) (byteOf v 3)

/-! ### The access primitives -/

/-- R33: an access of `n` bytes at `a` is valid exactly when `a + n <= MEM_SIZE`, on unbounded integers. -/
def Memory.valid (m : Memory) (a : Nat) (n : Width) : Bool := decide (a + n.bytes ≤ m.size)

/-- `MemRead(addr, 1)` and `Fetch(k, 1)` at `addr` (R34, R36); the kind is the fault's. -/
def readByte (kind : AccessKind) (m : Memory) (addr : Nat) : Except Fault Byte :=
  if m.valid addr .byte then .ok (m.byteAt addr) else raise (.bounds kind addr .byte)

/-- `MemRead(addr, 4)` and `Fetch(k, 4)` at `addr` (R34, R36); the kind is the fault's. -/
def readDword (kind : AccessKind) (m : Memory) (addr : Nat) : Except Fault Word :=
  if m.valid addr .dword then .ok (m.dwordAt addr) else raise (.bounds kind addr .dword)

/-- `MemWrite(addr, 4, v)` (R35): all four bytes are checked before the first is written. -/
def writeDword (m : Memory) (addr : Nat) (v : Word) : Except Fault Memory :=
  if m.valid addr .dword then .ok (m.setDword addr v) else raise (.bounds .write addr .dword)

end Sys2Proof.Machine
end

