-- ==== Sys2Proof/Machine/Flags.lean ====
section
/-! DEFINITION. The flag computations: there are none (spec/10_state.md R18, spec/41_arithmetic.md R104). -/

namespace Sys2Proof.Machine

/-- FLAGS after ADD, SUB or INC: unchanged, "no flag update" (R58, R104). -/
def arithFlags (old : Word) : Word := old

end Sys2Proof.Machine
end

