-- ==== Sys2Proof/Machine/Operands.lean ====
section
/-! DEFINITION. The AddressResolver: every form of the `r/m32` operand, its address, its read and its write
(spec/40_dispatch_and_operands.md R83 to R88). -/

namespace Sys2Proof.Machine

/-- `EffectiveAddress(d)` (R84): a 32-bit sum, modulo 2^32 (D4); the absolute form is the displacement
itself. DESIGN CHOICE (log 8): the forms that no bytes encode have the same sum; no step reaches them. -/
def effectiveAddress (s : State) : MemOperand → Word
  | .absolute disp => disp
  | .base b => s.reg b
  | .baseDisp8 b disp => s.reg b + sext8 disp
  | .baseDisp32 b disp => s.reg b + disp

/-- `ReadRM32(d)` (R85). -/
def readRM32 (s : State) : RM32 → Except Fault Word
  | .reg r => .ok (s.reg r)
  | .mem m => readDword .read s.mem (effectiveAddress s m).toNat

/-- `WriteRM32(d, v)` (R86): the one register or memory write of an instruction. -/
def writeRM32 (s : State) (d : RM32) (v : Word) : Except Fault State :=
  match d with
  | .reg r => .ok (s.setReg r v)
  | .mem m => do
    let mem ← writeDword s.mem (effectiveAddress s m).toNat v
    return { s with mem := mem }

/-- Writes `v` to the operand and moves past an instruction of `len` bytes (R16, R86). -/
def storeRM32 (s : State) (d : RM32) (v : Word) (len : Nat) : Result :=
  finish (do
    let t ← writeRM32 s d v
    return t.advance len)

end Sys2Proof.Machine
end

