-- ==== Sys2Proof/Machine/Arith.lean ====
section
/-! DEFINITION. ADD, SUB and INC (spec/41_arithmetic.md R100 to R104). -/

namespace Sys2Proof.Machine

/-- The shape of the three: read the `r/m32` operand, compute on 32 bits, write the result back, move past the
instruction (R100 to R103). FLAGS are as `arithFlags` leaves them. -/
def updateRM32 (s : State) (d : RM32) (f : Word → Word) (len : Nat) : Result :=
  finish (do
    let a ← readRM32 s d
    let t ← writeRM32 s d (f a)
    return { t with flags := arithFlags t.flags }.advance len)

/-- `add r/m32, r32` (R100). The addend is the register's value at the start (R88). -/
def execAdd (d : RM32) (r : Reg) (s : State) : Result :=
  updateRM32 s d (fun a => a + s.reg r) (1 + d.modrmLength)

/-- `sub r/m32, imm8` (R101). -/
def execSub (d : RM32) (imm : Byte) (s : State) : Result :=
  updateRM32 s d (fun a => a - sext8 imm) (2 + d.modrmLength)

/-- `inc r/m32` (R102). -/
def execInc (d : RM32) (s : State) : Result :=
  updateRM32 s d (fun a => a + 1#32) (1 + d.modrmLength)

end Sys2Proof.Machine
end

