-- ==== Sys2Proof/Machine/Jump.lean ====
section
/-! DEFINITION. The two relative jumps (spec/43_control_transfer.md R120 to R123). -/

namespace Sys2Proof.Machine

/-- The address of the next instruction plus an offset, modulo 2^32; the target is not checked (R122, R123). -/
def jumpFromNext (s : State) (len : Nat) (offset : Word) : Result :=
  .next (s.setPc (s.pc + BitVec.ofNat 32 len + offset))

/-- `jmp rel32` (R120). -/
def execJmpRel32 (rel : Word) (s : State) : Result := jumpFromNext s 5 rel

/-- `jmp rel8` (R121). -/
def execJmpRel8 (rel : Byte) (s : State) : Result := jumpFromNext s 2 (sext8 rel)

end Sys2Proof.Machine
end

