-- ==== Sys2Proof/Machine/Move.lean ====
section
/-! DEFINITION. The four MOV forms (spec/42_data_movement.md R110 to R114). -/

namespace Sys2Proof.Machine

/-- `mov r/m32, r32` (R110). The destination is not read. -/
def execMovStore (d : RM32) (r : Reg) (s : State) : Result :=
  storeRM32 s d (s.reg r) (1 + d.modrmLength)

/-- `mov r32, r/m32` (R111). -/
def execMovLoad (r : Reg) (d : RM32) (s : State) : Result :=
  finish (do
    let v ← readRM32 s d
    return (s.setReg r v).advance (1 + d.modrmLength))

/-- `mov r32, imm32` (R112). -/
def execMovRegImm (r : Reg) (imm : Word) (s : State) : Result :=
  .next ((s.setReg r imm).advance 5)

/-- `mov r/m32, imm32` (R113). The destination is not read. -/
def execMovImm (d : RM32) (imm : Word) (s : State) : Result :=
  storeRM32 s d imm (5 + d.modrmLength)

end Sys2Proof.Machine
end

