-- ==== Sys2Proof/Machine/Dispatch.lean ====
section
/-! DEFINITION. The dispatcher (spec/40_dispatch_and_operands.md R80, R81): one arm per instruction. -/

namespace Sys2Proof.Machine

/-- The meaning of each instruction (R58). -/
def exec (i : Instr) (s : State) : Host.Outcome State Fault Refusal :=
  match i with
  | .addRm32R32 d r => Sys2Proof.Machine.execAdd d r s
  | .subRm32Imm8 d imm => Sys2Proof.Machine.execSub d imm s
  | .movRm32R32 d r => Sys2Proof.Machine.execMovStore d r s
  | .movR32Rm32 r d => Sys2Proof.Machine.execMovLoad r d s
  | .movR32Imm32 r imm => Sys2Proof.Machine.execMovRegImm r imm s
  | .movRm32Imm32 d imm => Sys2Proof.Machine.execMovImm d imm s
  | .jmpRel32 rel => Sys2Proof.Machine.execJmpRel32 rel s
  | .jmpRel8 rel => Sys2Proof.Machine.execJmpRel8 rel s
  | .incRm32 d => Sys2Proof.Machine.execInc d s

end Sys2Proof.Machine
end

