-- ==== Sys2Proof/Machine/Fetch.lean ====
section
/-! DEFINITION. Fetching an instruction's bytes at `pc` and decoding them (spec/20_memory.md R36,
spec/40_dispatch_and_operands.md R80). -/

namespace Sys2Proof.Machine

/-- At most `n` bytes from address `a` on, ending where memory ends: the addresses are never wrapped (R17, R36). -/
def bytesFrom (m : Memory) (a : Nat) : Nat → List Byte
  | 0 => []
  | n + 1 => if a < m.size then m.byteAt a :: bytesFrom m (a + 1) n else []

/-- The bytes an instruction at `pc` can consist of: as many as the longest has, where they exist (R50). -/
def instrBytes (s : State) : List Byte := bytesFrom s.mem s.pc.toNat maxInstrBytes

/-- The fault a decoding error stands for, at `pc` (R131, R132, R135, R36). -/
def decodeFault (pc : Word) : DecodeError → Fault
  | .outside k n => .bounds .fetch (pc.toNat + k) n
  | .addressing mode rm => .unimplementedAddressing mode rm
  | .opcode op ext => .unimplementedOpcode op ext

/-- The instruction at `pc`, or the first fault of R133's places 1 to 7. -/
def fetchDecode (s : State) : Except Fault Instr :=
  match decode (instrBytes s) with
  | .ok i => .ok i
  | .error e => raise (decodeFault s.pc e)

/-- Bytes written one after the other from address `a` on, those that memory has (R162). -/
def Memory.setBytes (m : Memory) (a : Nat) : List Byte → Memory
  | [] => m
  | b :: rest => if a < m.size then (m.setByte a b).setBytes (a + 1) rest else m

end Sys2Proof.Machine
end

