-- ==== Sys2Proof/Machine/Step.lean ====
section
/-! DEFINITION. `Step` (spec/40_dispatch_and_operands.md R80, R82): one instruction at `pc`, or one fault. -/

namespace Sys2Proof.Machine

/-- `Step()`: fetch and decode the instruction at `pc`, then execute it. A fault carries no state: the state is the one
the step began in (R134). -/
def step (s : State) : Host.Outcome State Fault Refusal :=
  match fetchDecode s with
  | .ok i => exec i s
  | .error f => .fault f

/-- `s` with the instruction of a table word stored at `pc`, where `step` fetches next (log 5, log 7). -/
def State.withFetchWord (s : State) (nbits w : Nat) : State :=
  { s with mem := s.mem.setBytes s.pc.toNat (tableWordBytes nbits w) }

end Sys2Proof.Machine
end

