-- ==== Sys2Proof/Machine/Driver.lean ====
section
/-! DEFINITION. The contracts between the CORE and its driver: load, launch and the end of a run
(spec/70_reset_and_hazards.md R160 to R167). The driver itself is out of scope (spec/00_scope.md R3). -/

namespace Sys2Proof.Machine

/-- The construction and loading parameters of R4. -/
structure LaunchParams where
  memSize : Nat
  initEip : Word
  initEsp : Word
  loadOrigin : Nat
  image : List Byte
  deriving DecidableEq, Repr

/-- R4's ranges of `MEM_SIZE` and `LOAD_ORIGIN`. -/
def LaunchParams.inRange (p : LaunchParams) : Bool :=
  decide (1 ≤ p.memSize) && decide (p.memSize ≤ Config.maxMemSize) && decide (p.loadOrigin < p.memSize)

/-- `Load(LOAD_ORIGIN, IMAGE)` (R162): overlays the image; an image that does not fit is no launch (D15). -/
def load (origin : Nat) (image : List Byte) (s : State) : Result :=
  if origin + image.length ≤ s.mem.size then .next { s with mem := s.mem.setBytes origin image }
  else .refused .imageDoesNotFit

/-- `Reset`, then `Load` (R163). -/
def launch (p : LaunchParams) : Result :=
  if p.inRange then load p.loadOrigin p.image (State.construct p.memSize p.initEip p.initEsp)
  else .refused .parameterOutOfRange

/-- Why the driver's loop stopped (R164). -/
inductive StopReason where
  /-- `pc >= RUN_LIMIT` before a step. -/
  | limit
  /-- A step returned this fault. -/
  | fault (f : Fault)
  /-- `pc = 0` after a successful step. -/
  | zero
  deriving DecidableEq, Repr

/-- What is observed of a run: the stop reason with the full state (R166), or the state a run has come to when the
number of steps looked at is used up. -/
inductive RunEnd where
  | stopped (reason : StopReason) (s : State)
  | running (s : State)
  | refused (r : Refusal) (s : State)
  deriving DecidableEq, Repr

/-- The driver's loop of R164 with `RUN_LIMIT` = `limit`, followed for at most `n` steps. After a fault the state is
the one the faulting step began in (R134). DESIGN CHOICE (log 11): a limit above R4's range, 0 to 2^32, is not refused;
`pc` never reaches it, so the loop runs as under 2^32. -/
def runLoop (limit : Nat) : Nat → State → RunEnd
  | 0, s => .running s
  | n + 1, s =>
    if limit ≤ s.pc.toNat then .stopped .limit s
    else match step s with
      | .fault f => .stopped (.fault f) s
      | .refused r => .refused r s
      | .next t => if t.pc = 0#32 then .stopped .zero t else runLoop limit n t

end Sys2Proof.Machine
end

