-- ==== Sys2Proof/Machine/Dump.lean ====
section
/-! DEFINITION. `Dump()`, the read-only text view (spec/10_state.md R22). -/

namespace Sys2Proof.Machine

/-- One hexadecimal digit in the letter case of `DUMP_HEX_CASE` (R4, D12). -/
def hexDigit (c : HexCase) (d : Nat) : Char :=
  if d < 10 then Char.ofNat (48 + d)
  else match c with
    | .lower => Char.ofNat (87 + d)
    | .upper => Char.ofNat (55 + d)

/-- The `n` low hexadecimal digits of a number, most significant first. -/
def hexDigits (c : HexCase) (v : Nat) : Nat → List Char
  | 0 => []
  | n + 1 => hexDigit c (v / 16 ^ n % 16) :: hexDigits c v n

/-- A register's name in capitals (R11, R22). -/
def regName : Reg → String
  | .eax => "EAX" | .ecx => "ECX" | .edx => "EDX" | .ebx => "EBX"
  | .esp => "ESP" | .ebp => "EBP" | .esi => "ESI" | .edi => "EDI"

/-- One line: the name, the value as exactly eight digits with no 0x, the name in parentheses (R22). -/
def dumpLine (c : HexCase) (name : String) (v : Word) : String :=
  name ++ " = " ++ String.ofList (hexDigits c v.toNat 8) ++ " (" ++ name ++ ")"

/-- The fixed order of the registers (R22). -/
def dumpOrder : List Reg := [.eax, .ecx, .edx, .ebx, .esp, .ebp, .esi, .edi]

/-- The nine lines R22 writes out: one per register, then EIP. -/
def dumpListed (c : HexCase) (s : State) : List String :=
  dumpOrder.map (fun r => dumpLine c (regName r) (s.reg r)) ++ [dumpLine c "EIP" s.pc]

/-- The values the dump prints: the registers and `pc`, not FLAGS and not memory (R22). -/
def dumpValues (s : State) : List Word := dumpOrder.map s.reg ++ [s.pc]

/-- `Dump()`, a list of ten lines (R22, D12): the nine the rule writes out, then the tenth. DESIGN CHOICE (log 3): the
tenth's text, which the spec does not give, is a free value, and it stands last. -/
def dump (c : HexCase) (s : State) : List String :=
  dumpListed c s ++ [Config.dumpTenthLine c (dumpValues s)]

end Sys2Proof.Machine
end

