-- ==== Sys2Proof/Machine/Reference.lean ====
section
/-! DEFINITION. The spec's pseudocode of `Step`, transcribed as it is written: one pass that fetches from memory as it
decodes (spec/30_encoding.md R57; spec/40_dispatch_and_operands.md R80, R84 to R86; R100 to R102, R110 to R113, R120,
R121). The machine does not call it: it is what the machine's `step` is compared with. Arithmetic is on unbounded integers, reduced modulo
2^32 where R8's notation says so. -/

namespace Sys2Proof.Machine.Reference

/-- `Fetch(k, 1)` (R36). -/
def fetch1 (s : State) (k : Nat) : Except Fault Byte := readByte .fetch s.mem (s.pc.toNat + k)

/-- `Fetch(k, 4)` (R36). -/
def fetch4 (s : State) (k : Nat) : Except Fault Word := readDword .fetch s.mem (s.pc.toNat + k)

/-- The descriptor `(mode, reg, rm, disp, M)` of R57. -/
structure Desc where
  mode : BitVec 2
  reg : BitVec 3
  rm : BitVec 3
  disp : Word
  m : Nat

/-- `DecodeModRM()` (R57). -/
def decodeModRM (s : State) : Except Fault Desc := do
  let b ← fetch1 s 1
  let mode := b.extractLsb' 6 2
  let reg := b.extractLsb' 3 3
  let rm := b.extractLsb' 0 3
  if mode ≠ 3#2 ∧ rm = 4#3 then
    raise (.unimplementedAddressing mode rm)
  else if mode = 0#2 ∧ rm = 5#3 then do
    let disp ← fetch4 s 2
    return ⟨mode, reg, rm, disp, 5⟩
  else if mode = 2#2 then do
    let disp ← fetch4 s 2
    return ⟨mode, reg, rm, disp, 5⟩
  else if mode = 1#2 then do
    let disp8 ← fetch1 s 2
    return ⟨mode, reg, rm, sext8 disp8, 2⟩
  else
    return ⟨mode, reg, rm, 0#32, 1⟩

/-- `x[i]` for a three-bit index. -/
def x (s : State) (i : BitVec 3) : Word := s.reg (Reg.ofBits i)

/-- `EffectiveAddress(d)` (R84). -/
def effectiveAddress (s : State) (d : Desc) : Nat :=
  if d.mode = 0#2 ∧ d.rm = 5#3 then d.disp.toNat
  else if d.mode = 0#2 then (x s d.rm).toNat
  else ((x s d.rm).toNat + d.disp.toNat) % 2 ^ 32

/-- `ReadRM32(d)` (R85). -/
def readRM32 (s : State) (d : Desc) : Except Fault Word :=
  if d.mode = 3#2 then .ok (x s d.rm) else readDword .read s.mem (effectiveAddress s d)

/-- `WriteRM32(d, v)` (R86). -/
def writeRM32 (s : State) (d : Desc) (v : Word) : Except Fault State :=
  if d.mode = 3#2 then .ok (s.setReg (Reg.ofBits d.rm) v)
  else do
    let mem ← writeDword s.mem (effectiveAddress s d) v
    return { s with mem := mem }

/-- `pc <- target mod 2^32`, after the instruction's write. -/
def thenPc (target : Int) (t : State) : State := t.setPc (BitVec.ofInt 32 target)

/-- `ADD_rm32_r32` (R100). -/
def add (s : State) : Except Fault State := do
  let d ← decodeModRM s
  let a ← readRM32 s d
  let b := x s d.reg
  let t ← writeRM32 s d (BitVec.ofNat 32 (a.toNat + b.toNat))
  return thenPc (s.pc.toNat + 1 + d.m) t

/-- `SUB_rm32_imm8(d)` (R101). -/
def sub (s : State) (d : Desc) : Except Fault State := do
  let imm8 ← fetch1 s (1 + d.m)
  let a ← readRM32 s d
  let t ← writeRM32 s d (BitVec.ofInt 32 (a.toNat - (sext8 imm8).toNat))
  return thenPc (s.pc.toNat + 1 + d.m + 1) t

/-- `INC_rm32(d)` (R102). -/
def inc (s : State) (d : Desc) : Except Fault State := do
  let a ← readRM32 s d
  let t ← writeRM32 s d (BitVec.ofNat 32 (a.toNat + 1))
  return thenPc (s.pc.toNat + 1 + d.m) t

/-- `MOV_rm32_r32` (R110). -/
def movStore (s : State) : Except Fault State := do
  let d ← decodeModRM s
  let t ← writeRM32 s d (x s d.reg)
  return thenPc (s.pc.toNat + 1 + d.m) t

/-- `MOV_r32_rm32` (R111). -/
def movLoad (s : State) : Except Fault State := do
  let d ← decodeModRM s
  let v ← readRM32 s d
  return thenPc (s.pc.toNat + 1 + d.m) (s.setReg (Reg.ofBits d.reg) v)

/-- `MOV_r32_imm32(r)` (R112). -/
def movRegImm (s : State) (r : BitVec 3) : Except Fault State := do
  let imm ← fetch4 s 1
  return thenPc (s.pc.toNat + 5) (s.setReg (Reg.ofBits r) imm)

/-- `MOV_rm32_imm32` (R113). -/
def movImm (s : State) : Except Fault State := do
  let d ← decodeModRM s
  let imm ← fetch4 s (1 + d.m)
  let t ← writeRM32 s d imm
  return thenPc (s.pc.toNat + 1 + d.m + 4) t

/-- `JMP_rel32` (R120). -/
def jmpRel32 (s : State) : Except Fault State := do
  let rel ← fetch4 s 1
  return thenPc (s.pc.toNat + 5 + rel.toInt) s

/-- `JMP_rel8` (R121). -/
def jmpRel8 (s : State) : Except Fault State := do
  let b ← fetch1 s 1
  return thenPc (s.pc.toNat + 2 + b.toInt) s

/-- The case table of `Step()` (R80), over the opcode byte as a number. -/
def dispatch (s : State) (op : Byte) : Except Fault State :=
  if op.toNat = 0x01 then add s
  else if op.toNat = 0x83 then do
    let d ← decodeModRM s
    if d.reg = 5#3 then sub s d else raise (.unimplementedOpcode 0x83#8 (some d.reg))
  else if op.toNat = 0x89 then movStore s
  else if op.toNat = 0x8B then movLoad s
  else if 0xB8 ≤ op.toNat ∧ op.toNat ≤ 0xBF then movRegImm s (BitVec.ofNat 3 (op.toNat - 0xB8))
  else if op.toNat = 0xC7 then movImm s
  else if op.toNat = 0xE9 then jmpRel32 s
  else if op.toNat = 0xEB then jmpRel8 s
  else if op.toNat = 0xFF then do
    let d ← decodeModRM s
    if d.reg = 0#3 then inc s d else raise (.unimplementedOpcode 0xFF#8 (some d.reg))
  else raise (.unimplementedOpcode op none)

/-- `Step()` (R80). -/
def step (s : State) : Result :=
  finish (do
    let op ← fetch1 s 0
    dispatch s op)

end Sys2Proof.Machine.Reference
end

