-- ==== Sys2Proof/Safety.lean ====
section
/-! DEFINITION. What counts as a safe run, the invariant of every reachable state, and the terms the claims use. -/

namespace Sys2Proof.Machine

/-! ### Safe runs -/

/-- `n` steps from `s`, ending at the first fault (R163, R137). -/
def steps : Nat → State → Result
  | 0, s => .next s
  | n + 1, s =>
    match step s with
    | .next t => steps n t
    | .fault f => .fault f
    | .refused r => .refused r

/-- A safe run: `n` steps from `s` all succeed. It is the premise R137 asks of a claim about a program, "no step
returned a fault". -/
def SafeRun (n : Nat) (s : State) : Prop := ∃ t, steps n s = .next t

/-- Holds after every launch and is kept by every step: the memory is in canonical form with a size in R4's range, and
FLAGS is 0 (R18). -/
abbrev State.Inv (s : State) : Prop := s.mem.wf = true ∧ s.flags = 0#32

/-! ### Operands -/

/-- The operand can be accessed: it is a register, or all its four bytes are in memory (R33). -/
def operandValid (s : State) : RM32 → Bool
  | .reg _ => true
  | .mem m => s.mem.valid (effectiveAddress s m).toNat .dword

/-- The value an operand has: the register, or the little-endian doubleword at its address (R31, R85). -/
def operandValue (s : State) : RM32 → Word
  | .reg r => s.reg r
  | .mem m => s.mem.dwordAt (effectiveAddress s m).toNat

/-- After a step from `s` to `t`, the place the operand designated in `s` holds `v`. -/
def operandHolds (s t : State) (d : RM32) (v : Word) : Prop :=
  match d with
  | .reg r => t.reg r = v
  | .mem m => t.mem.dwordAt (effectiveAddress s m).toNat = v

/-- The register a write of the operand changes. -/
def operandDestReg : RM32 → Option Reg
  | .reg r => some r
  | .mem _ => none

/-- The address a write of the operand stores to. -/
def operandStoreAddress (s : State) : RM32 → Option Nat
  | .reg _ => none
  | .mem m => some (effectiveAddress s m).toNat

/-- The one register an instruction writes, if any (R82). -/
def destReg : Instr → Option Reg
  | .addRm32R32 d _ => operandDestReg d
  | .subRm32Imm8 d _ => operandDestReg d
  | .movRm32R32 d _ => operandDestReg d
  | .movR32Rm32 r _ => some r
  | .movR32Imm32 r _ => some r
  | .movRm32Imm32 d _ => operandDestReg d
  | .jmpRel32 _ => none
  | .jmpRel8 _ => none
  | .incRm32 d => operandDestReg d

/-- The address of the one doubleword an instruction stores, if any (R82). -/
def storeAddress (s : State) : Instr → Option Nat
  | .addRm32R32 d _ => operandStoreAddress s d
  | .subRm32Imm8 d _ => operandStoreAddress s d
  | .movRm32R32 d _ => operandStoreAddress s d
  | .movR32Rm32 _ _ => none
  | .movR32Imm32 _ _ => none
  | .movRm32Imm32 d _ => operandStoreAddress s d
  | .jmpRel32 _ => none
  | .jmpRel8 _ => none
  | .incRm32 d => operandStoreAddress s d

/-! ### Frames -/

/-- Nothing changed from `s` to `t` but `pc`, the register `dst` and the four bytes from `store` on, where given. -/
structure Frame (s t : State) (dst : Option Reg) (store : Option Nat) : Prop where
  regs : ∀ r, dst ≠ some r → t.reg r = s.reg r
  flags : t.flags = s.flags
  size : t.mem.size = s.mem.size
  bytes : ∀ a, (∀ b, store = some b → a < b ∨ b + 4 ≤ a) → t.mem.byteAt a = s.mem.byteAt a

/-! ### Opcodes and texts -/

/-- The sixteen opcode bytes of R58. -/
def implementedOpcodes : List Byte :=
  [0x01#8, 0x83#8, 0x89#8, 0x8B#8, 0xB8#8, 0xB9#8, 0xBA#8, 0xBB#8, 0xBC#8, 0xBD#8, 0xBE#8, 0xBF#8, 0xC7#8, 0xE9#8, 0xEB#8, 0xFF#8]

/-- The six opcode bytes with a ModRM byte (R50). -/
def modrmOpcodes : List Byte := [0x01#8, 0x83#8, 0x89#8, 0x8B#8, 0xC7#8, 0xFF#8]

/-- The sixteen digits of a letter case. -/
def hexAlphabet : HexCase → List Char
  | .lower => ['0', '1', '2', '3', '4', '5', '6', '7', '8', '9', 'a', 'b', 'c', 'd', 'e', 'f']
  | .upper => ['0', '1', '2', '3', '4', '5', '6', '7', '8', '9', 'A', 'B', 'C', 'D', 'E', 'F']

/-- The number a list of digits writes, most significant first. -/
def hexValue (c : HexCase) (ds : List Char) : Nat :=
  ds.foldl (fun n d => 16 * n + (hexAlphabet c).idxOf d) 0

end Sys2Proof.Machine
end

