-- ==== Sys2Proof/Certificates/Slice0/Obligations.lean ====
section
/-! DEFINITION. The statements for the provers, each from the spec's rules; OBLIGATIONS.json lists them. -/

open Sys2Proof Sys2Proof.Machine

/-! ### Encoding -/

/-- R51, R55, R56, R58, R63: decoding the encoding of any well-formed instruction gives it back, whatever bytes follow
and whatever the `reg` field that 0xC7 ignores holds. -/
def Obligations.DecodeInvertsEncode : Prop :=
  ∀ (i : Instr) (spare : BitVec 3) (rest : List Byte), i.wellFormed = true → decode (i.encodeWith spare ++ rest) = .ok i

/-- The other direction: every byte string the decoder accepts begins with the encoding of the instruction it reads,
and that instruction is well formed. With `DecodeInvertsEncode` it says exactly which bytes decode to what. -/
def Obligations.EncodeCoversDecode : Prop :=
  ∀ (bs : List Byte) (i : Instr), decode bs = .ok i →
    i.wellFormed = true ∧ ∃ spare : BitVec 3, bs.take i.length = i.encodeWith spare

/-- Words of the spec's own examples, one per instruction, decode to the instruction the spec names. -/
def Obligations.ExampleWordsDecode : Prop :=
  decode [0x01#8, 0xC0#8] = .ok (.addRm32R32 (.reg .eax) .eax) ∧
  decode [0x83#8, 0xEC#8, 0x10#8] = .ok (.subRm32Imm8 (.reg .esp) 0x10#8) ∧
  decode [0xFF#8, 0xC3#8] = .ok (.incRm32 (.reg .ebx)) ∧
  decode [0x89#8, 0xE5#8] = .ok (.movRm32R32 (.reg .ebp) .esp) ∧
  decode [0x8B#8, 0x45#8, 0xFC#8] = .ok (.movR32Rm32 .eax (.mem (.baseDisp8 .ebp 0xFC#8))) ∧
  decode [0xB8#8, 0x05#8, 0x00#8, 0x00#8, 0x00#8] = .ok (.movR32Imm32 .eax 5#32) ∧
  decode [0xC7#8, 0x05#8, 0x00#8, 0x02#8, 0x00#8, 0x00#8, 0x78#8, 0x56#8, 0x34#8, 0x12#8] =
    .ok (.movRm32Imm32 (.mem (.absolute 0x200#32)) 0x12345678#32) ∧
  decode [0xE9#8, 0xDC#8, 0x83#8, 0xFF#8, 0xFF#8] = .ok (.jmpRel32 0xFFFF83DC#32) ∧
  decode [0xEB#8, 0xFE#8] = .ok (.jmpRel8 0xFE#8)

/-- R55: the operand and the ModRM length for all 32 (mode, rm) pairs, with the fields as R52 extracts them. -/
def Obligations.ModRMTable : Prop :=
  ∀ (op b : Byte) (rest : List Byte) (mode : BitVec 2) (reg rm : BitVec 3),
    mode.toNat = (b.toNat >>> 6) &&& 0b11 → reg.toNat = (b.toNat >>> 3) &&& 0b111 → rm.toNat = b.toNat &&& 0b111 →
    (mode ≠ 3#2 → rm = 4#3 → decodeModRM (op :: b :: rest) = .error (.addressing mode 4#3)) ∧
    (mode = 0#2 → rm ≠ 4#3 → rm ≠ 5#3 → ∃ d, decodeModRM (op :: b :: rest) = .ok d ∧ d.reg = reg ∧
      d.rm = .mem (.base (Reg.ofBits rm)) ∧ d.rm.modrmLength = 1) ∧
    (mode = 0#2 → rm = 5#3 → ∀ d0 d1 d2 d3 tail, rest = d0 :: d1 :: d2 :: d3 :: tail →
      ∃ d, decodeModRM (op :: b :: rest) = .ok d ∧ d.reg = reg ∧
        d.rm = .mem (.absolute (le32 d0 d1 d2 d3)) ∧ d.rm.modrmLength = 5) ∧
    (mode = 1#2 → rm ≠ 4#3 → ∀ d0 tail, rest = d0 :: tail →
      ∃ d, decodeModRM (op :: b :: rest) = .ok d ∧ d.reg = reg ∧
        d.rm = .mem (.baseDisp8 (Reg.ofBits rm) d0) ∧ d.rm.modrmLength = 2) ∧
    (mode = 2#2 → rm ≠ 4#3 → ∀ d0 d1 d2 d3 tail, rest = d0 :: d1 :: d2 :: d3 :: tail →
      ∃ d, decodeModRM (op :: b :: rest) = .ok d ∧ d.reg = reg ∧
        d.rm = .mem (.baseDisp32 (Reg.ofBits rm) (le32 d0 d1 d2 d3)) ∧ d.rm.modrmLength = 5) ∧
    (mode = 3#2 → ∃ d, decodeModRM (op :: b :: rest) = .ok d ∧ d.reg = reg ∧
      d.rm = .reg (Reg.ofBits rm) ∧ d.rm.modrmLength = 1)

/-- R53: the decoder reports an unimplemented shape exactly on a SIB-shaped ModRM byte, before any displacement is
fetched; the shapes are the 24 bytes the rule lists; with mode 3, rm 4 is legal and names ESP. -/
def Obligations.SibShapesFault : Prop :=
  (∀ (bs : List Byte) (mode : BitVec 2) (rm : BitVec 3), decodeModRM bs = .error (.addressing mode rm) ↔
    ∃ b, bs[1]? = some b ∧ mode = modeField b ∧ rm = rmField b ∧ mode ≠ 3#2 ∧ rm = 4#3) ∧
  (∀ b : Byte, (modeField b ≠ 3#2 ∧ rmField b = 4#3) ↔
    b ∈ ([0x04#8, 0x0C#8, 0x14#8, 0x1C#8, 0x24#8, 0x2C#8, 0x34#8, 0x3C#8, 0x44#8, 0x4C#8, 0x54#8, 0x5C#8, 0x64#8, 0x6C#8, 0x74#8, 0x7C#8,
      0x84#8, 0x8C#8, 0x94#8, 0x9C#8, 0xA4#8, 0xAC#8, 0xB4#8, 0xBC#8] : List Byte)) ∧
  (∀ (bs : List Byte) (b : Byte), bs[1]? = some b → modeField b = 3#2 → rmField b = 4#3 →
    decodeModRM bs = .ok ⟨regField b, .reg .esp⟩)

/-- R60: the `mov r32, imm32` family is exactly the opcodes 0xB8 to 0xBF, one for each register; 0xC0 is unimplemented. -/
def Obligations.MovImmFamilyIsExact : Prop :=
  (∀ (op : Byte) (rest : List Byte) (r : Reg) (imm : Word), decode (op :: rest) = .ok (.movR32Imm32 r imm) ↔
    0xB8 ≤ op.toNat ∧ op.toNat ≤ 0xBF ∧ r.bits.toNat = op.toNat - 0xB8 ∧ fetchDword (op :: rest) 1 = .ok imm) ∧
  ∀ rest : List Byte, decode (0xC0#8 :: rest) = .error (.opcode 0xC0#8 none)

/-- R61: the 240 other opcode bytes, in the rule's ranges; each is a fault raised from the opcode byte alone. -/
def Obligations.UnimplementedOpcodes : Prop :=
  (∀ op : Byte, op ∉ implementedOpcodes ↔
    (op.toNat = 0x00 ∨ (0x02 ≤ op.toNat ∧ op.toNat ≤ 0x82) ∨ (0x84 ≤ op.toNat ∧ op.toNat ≤ 0x88) ∨ op.toNat = 0x8A ∨
      (0x8C ≤ op.toNat ∧ op.toNat ≤ 0xB7) ∨ (0xC0 ≤ op.toNat ∧ op.toNat ≤ 0xC6) ∨
      (0xC8 ≤ op.toNat ∧ op.toNat ≤ 0xE8) ∨ op.toNat = 0xEA ∨ (0xEC ≤ op.toNat ∧ op.toNat ≤ 0xFE))) ∧
  (∀ (op : Byte) (rest : List Byte), op ∉ implementedOpcodes → decode (op :: rest) = .error (.opcode op none)) ∧
  ∀ s : State, s.pc.toNat < s.mem.size → s.mem.byteAt s.pc.toNat ∉ implementedOpcodes →
    step s = .fault (.unimplementedOpcode (s.mem.byteAt s.pc.toNat) none)

/-- R62: after the ModRM bytes have been decoded, every extension of 0x83 but 5 and every extension of 0xFF but 0 is a
fault that names the opcode and the extension; what follows the ModRM bytes does not matter. -/
def Obligations.UnimplementedExtensions : Prop :=
  ∀ (s : State) (d : Descriptor), decodeModRM (instrBytes s) = .ok d →
    ((instrBytes s)[0]? = some 0x83#8 → d.reg ≠ 5#3 → step s = .fault (.unimplementedOpcode 0x83#8 (some d.reg))) ∧
    ((instrBytes s)[0]? = some 0xFF#8 → d.reg ≠ 0#3 → step s = .fault (.unimplementedOpcode 0xFF#8 (some d.reg)))

/-- R63 with D8 (the spec's own decision): two ModRM bytes of 0xC7 that differ only in the `reg` field decode to the
same instruction. -/
def Obligations.MovImmIgnoresReg : Prop :=
  ∀ (b c : Byte) (rest : List Byte), modeField b = modeField c → rmField b = rmField c →
    decode (0xC7#8 :: b :: rest) = decode (0xC7#8 :: c :: rest)

/-- R67 (derived by the spec): the decoded instruction is the one whose opcode-table row matches, and no word matches
two rows. -/
def Obligations.OpcodeRowsSelect : Prop :=
  (∀ (b0 b1 : Byte) (rest : List Byte) (i : Instr), decode (b0 :: b1 :: rest) = .ok i → i.row.selects (b0 ++ b1) = true) ∧
  ∀ (i j : Instr) (w : BitVec 16), i.row.selects w = true → j.row.selects w = true → i.row = j.row

/-! ### Memory -/

/-- R31: the value of the doubleword at an address, and the bytes a store sets, little-endian. -/
def Obligations.DwordsAreLittleEndian : Prop :=
  (∀ (m : Memory) (a : Nat), (m.dwordAt a).toNat = (m.byteAt a).toNat + 256 * (m.byteAt (a + 1)).toNat +
    65536 * (m.byteAt (a + 2)).toNat + 16777216 * (m.byteAt (a + 3)).toNat) ∧
  ∀ (m : Memory) (a : Nat) (v : Word) (i : Nat), i < 4 →
    ((m.setDword a v).byteAt (a + i)).toNat = (v.toNat >>> (8 * i)) % 256

/-- R34: `MemRead` for both widths: the little-endian sum of the bytes, or the bounds fault with the access's own
address and width. -/
def Obligations.MemReadIsCheckedSum : Prop :=
  ∀ (m : Memory) (a : Nat),
    (m.size < a + 1 → readByte .read m a = .error (.bounds .read a .byte)) ∧
    (a + 1 ≤ m.size → readByte .read m a = .ok (m.byteAt a)) ∧
    (m.size < a + 4 → readDword .read m a = .error (.bounds .read a .dword)) ∧
    (a + 4 ≤ m.size → ∃ v, readDword .read m a = .ok v ∧
      v.toNat = ((List.range 4).map fun i => (m.byteAt (a + i)).toNat * 256 ^ i).sum)

/-- R35 with D14 (the spec's own decision): a store faults as a whole and writes nothing, or sets its four bytes and
changes no other byte. -/
def Obligations.MemWriteIsAllOrNothing : Prop :=
  ∀ (m : Memory) (a : Nat) (v : Word),
    (m.size < a + 4 → writeDword m a v = .error (.bounds .write a .dword)) ∧
    (a + 4 ≤ m.size → ∃ n, writeDword m a v = .ok n ∧ n.size = m.size ∧
      (∀ i, i < 4 → (n.byteAt (a + i)).toNat = v.toNat / 2 ^ (8 * i) % 256) ∧
      ∀ b, b < a ∨ a + 4 ≤ b → n.byteAt b = m.byteAt b)

/-- R38: a write followed by a read of the same bytes returns what was written, and a doubleword that does not overlap
them reads as before. -/
def Obligations.ReadAfterWrite : Prop :=
  ∀ (m n : Memory) (a : Nat) (v : Word), writeDword m a v = .ok n →
    readDword .read n a = .ok v ∧
    ∀ b, b + 4 ≤ a ∨ a + 4 ≤ b → readDword .read n b = readDword .read m b

/-- R36, for the fetches an instruction can make: the decoder's byte and doubleword at `k` are those of memory at
`pc + k`, an unbounded sum, and a fetch that leaves memory is the bounds fault at `pc + k`. -/
def Obligations.FetchReadsMemoryAtPc : Prop :=
  ∀ (s : State) (k : Nat),
    (k + 1 ≤ maxInstrBytes →
      (match fetchByte (instrBytes s) k with
        | .ok b => .ok b
        | .error e => .error (decodeFault s.pc e)) = readByte .fetch s.mem (s.pc.toNat + k)) ∧
    (k + 4 ≤ maxInstrBytes →
      (match fetchDword (instrBytes s) k with
        | .ok v => .ok v
        | .error e => .error (decodeFault s.pc e)) = readDword .fetch s.mem (s.pc.toNat + k))

/-- R43 (derived by the spec): the bytes of a store are the bytes a later fetch reads there. -/
def Obligations.StoresAreSeenByFetch : Prop :=
  ∀ (s : State) (n : Memory) (a : Nat) (v p : Word) (k : Nat), writeDword s.mem a v = .ok n → k < maxInstrBytes →
    (a ≤ p.toNat + k → p.toNat + k < a + 4 →
      (instrBytes { s with mem := n, pc := p })[k]? = some (byteOf v (p.toNat + k - a))) ∧
    (p.toNat + k < a ∨ a + 4 ≤ p.toNat + k →
      (instrBytes { s with mem := n, pc := p })[k]? = (instrBytes { s with pc := p })[k]?)

/-- The model's form of memory (log 10, DESIGN CHOICE): two memories in canonical form that have the same size and read
alike at every address are the same data. -/
def Obligations.CanonicalMemoriesAreEqualData : Prop :=
  ∀ m n : Memory, m.wf = true → n.wf = true → m.size = n.size → (∀ a, m.byteAt a = n.byteAt a) → m = n

/-! ### Operands -/

/-- R84 with D4 (the spec's own decision): the effective address of each memory form, as a sum of the base and the
signed displacement, modulo 2^32. The base form at ESP and at EBP and the displacement forms at ESP have no encoding
(R53, R54): R84 excludes them, and what the statement says of them is the model's choice (log 8). -/
def Obligations.EffectiveAddresses : Prop :=
  ∀ (s : State) (b : Reg) (d8 : Byte) (d32 : Word),
    (effectiveAddress s (.absolute d32)).toNat = d32.toNat ∧
    effectiveAddress s (.base b) = s.reg b ∧
    ((effectiveAddress s (.baseDisp8 b d8)).toNat : Int) = ((s.reg b).toNat + d8.toInt) % 2 ^ 32 ∧
    ((effectiveAddress s (.baseDisp32 b d32)).toNat : Int) = ((s.reg b).toNat + d32.toInt) % 2 ^ 32

/-- R85, R86: the register form reads and writes the register; the memory form reads and writes the doubleword at the
effective address; a memory operand whose read succeeded cannot fault on the write. R84's precondition excludes the
forms that no bytes encode (an ESP base, a bare EBP base): what this says of them is the model's choice (log 8). -/
def Obligations.OperandAccess : Prop :=
  ∀ (s : State) (v : Word),
    (∀ r, readRM32 s (.reg r) = .ok (s.reg r)) ∧
    (∀ m, readRM32 s (.mem m) = readDword .read s.mem (effectiveAddress s m).toNat) ∧
    (∀ r, writeRM32 s (.reg r) v = .ok (s.setReg r v)) ∧
    (∀ m f, writeDword s.mem (effectiveAddress s m).toNat v = .error f → writeRM32 s (.mem m) v = .error f) ∧
    (∀ m n, writeDword s.mem (effectiveAddress s m).toNat v = .ok n →
      writeRM32 s (.mem m) v = .ok { s with mem := n }) ∧
    (∀ d a, readRM32 s d = .ok a → ∃ t, writeRM32 s d v = .ok t)

/-! ### What each instruction answers

The statements of this section and the frames speak of every term of `RM32`. What they say of the four operand forms
that no bytes encode (an ESP base, a bare EBP base) is the model's choice (log 8); no step reaches those forms. -/

/-- R100, R103 (modulo 2^32 is D3): `add r/m32, r32` completes whenever its operand is valid; the operand holds the sum
of its old value and the register's old value; `pc` moves past 1 + M bytes.
Forms that no bytes encode: log 8. -/
def Obligations.AddResult : Prop :=
  ∀ (s : State) (d : RM32) (r : Reg), operandValid s d = true →
    ∃ t v, exec (.addRm32R32 d r) s = .next t ∧ operandHolds s t d v ∧
      v.toNat = ((operandValue s d).toNat + (s.reg r).toNat) % 2 ^ 32 ∧
      t.pc.toNat = (s.pc.toNat + 1 + d.modrmLength) % 2 ^ 32

/-- R101, R103 (modulo 2^32 is D3): `sub r/m32, imm8` completes whenever its operand is valid; the operand holds its
old value less the signed immediate; `pc` moves past 2 + M bytes.
Forms that no bytes encode: log 8. -/
def Obligations.SubResult : Prop :=
  ∀ (s : State) (d : RM32) (imm : Byte), operandValid s d = true →
    ∃ t v, exec (.subRm32Imm8 d imm) s = .next t ∧ operandHolds s t d v ∧
      (v.toNat : Int) = ((operandValue s d).toNat - imm.toInt) % 2 ^ 32 ∧
      t.pc.toNat = (s.pc.toNat + 1 + d.modrmLength + 1) % 2 ^ 32

/-- R102, R103 (modulo 2^32 is D3): `inc r/m32` completes whenever its operand is valid; the operand holds its old value
plus one; `pc` moves past 1 + M bytes.
Forms that no bytes encode: log 8. -/
def Obligations.IncResult : Prop :=
  ∀ (s : State) (d : RM32), operandValid s d = true →
    ∃ t v, exec (.incRm32 d) s = .next t ∧ operandHolds s t d v ∧
      v.toNat = ((operandValue s d).toNat + 1) % 2 ^ 32 ∧
      t.pc.toNat = (s.pc.toNat + 1 + d.modrmLength) % 2 ^ 32

/-- R110: `mov r/m32, r32` completes whenever its operand is valid; the operand holds the register's old value; `pc`
moves past 1 + M bytes (modulo 2^32 is D2).
Forms that no bytes encode: log 8. -/
def Obligations.MovStoreResult : Prop :=
  ∀ (s : State) (d : RM32) (r : Reg), operandValid s d = true →
    ∃ t, exec (.movRm32R32 d r) s = .next t ∧ operandHolds s t d (s.reg r) ∧
      t.pc.toNat = (s.pc.toNat + 1 + d.modrmLength) % 2 ^ 32

/-- R111, R88: `mov r32, r/m32` completes whenever its operand is valid; the register holds the operand's old value,
also where it was the operand's base; `pc` moves past 1 + M bytes (modulo 2^32 is D2).
Forms that no bytes encode: log 8. -/
def Obligations.MovLoadResult : Prop :=
  ∀ (s : State) (r : Reg) (d : RM32), operandValid s d = true →
    ∃ t, exec (.movR32Rm32 r d) s = .next t ∧ t.reg r = operandValue s d ∧
      t.pc.toNat = (s.pc.toNat + 1 + d.modrmLength) % 2 ^ 32

/-- R113: `mov r/m32, imm32` completes whenever its operand is valid; the operand holds the immediate; `pc` moves past
5 + M bytes (modulo 2^32 is D2).
Forms that no bytes encode: log 8. -/
def Obligations.MovImmResult : Prop :=
  ∀ (s : State) (d : RM32) (imm : Word), operandValid s d = true →
    ∃ t, exec (.movRm32Imm32 d imm) s = .next t ∧ operandHolds s t d imm ∧
      t.pc.toNat = (s.pc.toNat + 1 + d.modrmLength + 4) % 2 ^ 32

/-- R112 and the source's property E1, from the bytes in memory: `B8+r imm32` at `pc` completes in one step; the
register holds the immediate, `pc` is 5 further (modulo 2^32 is D2), no other register and nothing else changes. An
immediate that runs past the end of memory is the bounds fault at `pc + 1`. -/
def Obligations.MovRegImmStep : Prop :=
  ∀ (s : State) (r : Reg) (imm : Word),
    s.pc.toNat < s.mem.size → (s.mem.byteAt s.pc.toNat).toNat = 0xB8 + r.bits.toNat →
    (s.mem.size < s.pc.toNat + 5 → step s = .fault (.bounds .fetch (s.pc.toNat + 1) .dword)) ∧
    (s.pc.toNat + 5 ≤ s.mem.size → s.mem.dwordAt (s.pc.toNat + 1) = imm →
      ∃ t, step s = .next t ∧ exec (.movR32Imm32 r imm) s = .next t ∧ t.reg r = imm ∧
        t.pc.toNat = (s.pc.toNat + 5) % 2 ^ 32 ∧ (∀ q, q ≠ r → t.reg q = s.reg q) ∧
        t.flags = s.flags ∧ t.mem = s.mem)

/-- `mov r32, imm32` completes in every state, for every register and immediate (R112). -/
def Obligations.MovRegImmResult : Prop :=
  ∀ (s : State) (r : Reg) (imm : Word),
    ∃ t, exec (.movR32Imm32 r imm) s = .next t ∧ t.reg r = imm ∧ t.pc.toNat = (s.pc.toNat + 5) % 2 ^ 32

/-- R120, R123 (modulo 2^32 is D2): `jmp rel32` completes in every state, at the address of the next instruction plus
the signed offset. The target is not checked, and no register, flag or byte changes. -/
def Obligations.JmpRel32Result : Prop :=
  ∀ (s : State) (rel : Word), ∃ t, exec (.jmpRel32 rel) s = .next t ∧
    (t.pc.toNat : Int) = (s.pc.toNat + 5 + rel.toInt) % 2 ^ 32 ∧
    t.regs = s.regs ∧ t.flags = s.flags ∧ t.mem = s.mem

/-- R121, R123 (modulo 2^32 is D2): `jmp rel8` completes in every state, at the address of the next instruction plus
the signed offset. The target is not checked, and no register, flag or byte changes. -/
def Obligations.JmpRel8Result : Prop :=
  ∀ (s : State) (rel : Byte), ∃ t, exec (.jmpRel8 rel) s = .next t ∧
    (t.pc.toNat : Int) = (s.pc.toNat + 2 + rel.toInt) % 2 ^ 32 ∧
    t.regs = s.regs ∧ t.flags = s.flags ∧ t.mem = s.mem

/-- R100, R101, R102, R111, R131: an instruction that reads its memory operand raises the read bounds fault, with the
effective address and width 4, exactly when one of the four bytes is outside memory.
Forms that no bytes encode: log 8. -/
def Obligations.ReadOperandFaults : Prop :=
  ∀ (s : State) (m : MemOperand) (r : Reg) (imm : Byte) (i : Instr),
    i ∈ [.addRm32R32 (.mem m) r, .subRm32Imm8 (.mem m) imm, .incRm32 (.mem m), .movR32Rm32 r (.mem m)] →
    (exec i s = .fault (.bounds .read (effectiveAddress s m).toNat .dword) ↔
      s.mem.size < (effectiveAddress s m).toNat + 4)

/-- R110, R113, R131: an instruction that only writes its memory operand raises the write bounds fault, with the
effective address and width 4, exactly when one of the four bytes is outside memory.
Forms that no bytes encode: log 8. -/
def Obligations.WriteOperandFaults : Prop :=
  ∀ (s : State) (m : MemOperand) (r : Reg) (imm : Word) (i : Instr),
    i ∈ [.movRm32R32 (.mem m) r, .movRm32Imm32 (.mem m) imm] →
    (exec i s = .fault (.bounds .write (effectiveAddress s m).toNat .dword) ↔
      s.mem.size < (effectiveAddress s m).toNat + 4)

/-! ### What each instruction leaves unchanged -/

/-- The frame of ADD, SUB and INC (R100, R101, R102): their operand changes, and `pc`; no other register, no flag and no
other byte of memory.
Forms that no bytes encode: log 8. -/
def Obligations.ArithmeticFrame : Prop :=
  ∀ (s t : State) (d : RM32) (r : Reg) (imm : Byte) (i : Instr),
    i ∈ [.addRm32R32 d r, .subRm32Imm8 d imm, .incRm32 d] → exec i s = .next t →
    Frame s t (operandDestReg d) (operandStoreAddress s d)

/-- The frame of the two MOVs into an `r/m32` operand (R110, R113).
Forms that no bytes encode: log 8. -/
def Obligations.MovStoreFrame : Prop :=
  ∀ (s t : State) (d : RM32) (r : Reg) (imm : Word) (i : Instr),
    i ∈ [.movRm32R32 d r, .movRm32Imm32 d imm] → exec i s = .next t →
    Frame s t (operandDestReg d) (operandStoreAddress s d)

/-- The frame of the two MOVs into a register (R111, R112): no byte of memory changes.
Forms that no bytes encode: log 8. -/
def Obligations.MovRegisterFrame : Prop :=
  ∀ (s t : State) (r : Reg) (d : RM32) (imm : Word) (i : Instr),
    i ∈ [.movR32Rm32 r d, .movR32Imm32 r imm] → exec i s = .next t →
    Frame s t (some r) none

/-- The frame of the two jumps (R120, R121): only `pc` changes. -/
def Obligations.JumpFrame : Prop :=
  ∀ (s t : State) (rel32 : Word) (rel8 : Byte) (i : Instr),
    i ∈ [.jmpRel32 rel32, .jmpRel8 rel8] → exec i s = .next t →
    Frame s t none none

/-- R104: none of ADD, SUB, INC updates any flag. -/
def Obligations.ArithmeticLeavesFlags : Prop :=
  ∀ (s t : State) (d : RM32) (r : Reg) (imm : Byte),
    (exec (.addRm32R32 d r) s = .next t → t.flags = s.flags) ∧
    (exec (.subRm32Imm8 d imm) s = .next t → t.flags = s.flags) ∧
    (exec (.incRm32 d) s = .next t → t.flags = s.flags)

/-! ### The step -/

/-- When the bytes at `pc` decode to an instruction, the step is that instruction's execution, with nothing added
around it: each meaning moves `pc` itself. -/
def Obligations.StepRunsTheDecodedInstruction : Prop :=
  ∀ (s : State) (i : Instr), decode (instrBytes s) = .ok i → step s = exec i s

/-- When memory at `pc` holds the encoding of a well-formed instruction, all of it inside memory, the step executes
that instruction, whatever stands after it. -/
def Obligations.StepRunsTheEncodedInstruction : Prop :=
  ∀ (s : State) (i : Instr) (spare : BitVec 3), i.wellFormed = true → s.pc.toNat + i.length ≤ s.mem.size →
    (∀ k b, (i.encodeWith spare)[k]? = some b → s.mem.byteAt (s.pc.toNat + k) = b) → step s = exec i s

/-- R80: the machine's step is the spec's pseudocode of `Step`, in every state: the same next state or the same fault.
The order of the immediate fetch and the operand read is D6, the sums modulo 2^32 are D2, D3 and D4. -/
def Obligations.StepIsThePseudocode : Prop :=
  ∀ s : State, step s = Reference.step s

/-- R133, places 1 to 5 and 7 (the order is completed by D6): which fault a step reports when instruction bytes are
missing, the shape is a SIB shape or the opcode is not implemented. Of place 7 it has the immediates of 0x83 /5, 0xC7,
0xE9 and 0xEB; that of 0xB8+r stands in `MovRegImmStep`. Place 6 stands in `UnimplementedExtensions`. -/
def Obligations.FetchFaultOrder : Prop :=
  ∀ (s : State) (pc size : Nat) (op b : Byte), pc = s.pc.toNat → size = s.mem.size →
    op = s.mem.byteAt pc → b = s.mem.byteAt (pc + 1) →
    (size ≤ pc → step s = .fault (.bounds .fetch pc .byte)) ∧
    (pc < size → op ∉ implementedOpcodes → step s = .fault (.unimplementedOpcode op none)) ∧
    (pc < size → op ∈ modrmOpcodes → size ≤ pc + 1 → step s = .fault (.bounds .fetch (pc + 1) .byte)) ∧
    (pc + 1 < size → op ∈ modrmOpcodes → modeField b ≠ 3#2 → rmField b = 4#3 →
      step s = .fault (.unimplementedAddressing (modeField b) 4#3)) ∧
    (pc + 1 < size → op ∈ modrmOpcodes → modeField b = 1#2 → rmField b ≠ 4#3 → size ≤ pc + 2 →
      step s = .fault (.bounds .fetch (pc + 2) .byte)) ∧
    (pc + 1 < size → op ∈ modrmOpcodes → (modeField b = 2#2 ∧ rmField b ≠ 4#3 ∨ modeField b = 0#2 ∧ rmField b = 5#3) →
      size < pc + 6 → step s = .fault (.bounds .fetch (pc + 2) .dword)) ∧
    (∀ d, pc < size → op = 0x83#8 → decodeModRM (instrBytes s) = .ok d → d.reg = 5#3 →
      size ≤ pc + 1 + d.rm.modrmLength → step s = .fault (.bounds .fetch (pc + 1 + d.rm.modrmLength) .byte)) ∧
    (∀ d, pc < size → op = 0xC7#8 → decodeModRM (instrBytes s) = .ok d →
      size < pc + 1 + d.rm.modrmLength + 4 → step s = .fault (.bounds .fetch (pc + 1 + d.rm.modrmLength) .dword)) ∧
    (pc < size → op = 0xE9#8 → size < pc + 5 → step s = .fault (.bounds .fetch (pc + 1) .dword)) ∧
    (pc < size → op = 0xEB#8 → size ≤ pc + 1 → step s = .fault (.bounds .fetch (pc + 1) .byte))

/-- R132: a step reports an unimplemented shape exactly when one of the six ModRM instructions stands at `pc` with a
SIB-shaped ModRM byte in memory; the payload is the (mode, rm) pair. -/
def Obligations.AddressingFaultsExactly : Prop :=
  ∀ (s : State) (mode : BitVec 2) (rm : BitVec 3), step s = .fault (.unimplementedAddressing mode rm) ↔
    s.pc.toNat + 1 < s.mem.size ∧ s.mem.byteAt s.pc.toNat ∈ modrmOpcodes ∧
    mode = modeField (s.mem.byteAt (s.pc.toNat + 1)) ∧ rm = rmField (s.mem.byteAt (s.pc.toNat + 1)) ∧ mode ≠ 3#2 ∧ rm = 4#3

/-- R135: a step reports an unimplemented opcode exactly in the rule's two cases, with the opcode byte and, in the
second case, the extension. -/
def Obligations.OpcodeFaultsExactly : Prop :=
  ∀ (s : State) (op : Byte) (ext : Option (BitVec 3)), step s = .fault (.unimplementedOpcode op ext) ↔
    (s.pc.toNat < s.mem.size ∧ op = s.mem.byteAt s.pc.toNat) ∧
    ((op ∉ implementedOpcodes ∧ ext = none) ∨
      (∃ d, decodeModRM (instrBytes s) = .ok d ∧ ext = some d.reg ∧
        (op = 0x83#8 ∧ d.reg ≠ 5#3 ∨ op = 0xFF#8 ∧ d.reg ≠ 0#3)))

/-- R131, R33: every bounds fault a step reports is of an access that really leaves memory: a fetch of one of the
instruction's bytes, the read of a memory operand by an instruction that reads it, or the write of one by an
instruction that only writes it. -/
def Obligations.BoundsFaultsAreReal : Prop :=
  ∀ (s : State) (kind : AccessKind) (a : Nat) (n : Width), step s = .fault (.bounds kind a n) →
    s.mem.size < a + n.bytes ∧
    (kind = .fetch → s.pc.toNat ≤ a ∧ a < s.pc.toNat + maxInstrBytes) ∧
    (kind = .read → n = .dword ∧ ∃ i m r imm, decode (instrBytes s) = .ok i ∧ a = (effectiveAddress s m).toNat ∧
      i ∈ [.addRm32R32 (.mem m) r, .subRm32Imm8 (.mem m) imm, .incRm32 (.mem m), .movR32Rm32 r (.mem m)]) ∧
    (kind = .write → n = .dword ∧ ∃ i m r imm, decode (instrBytes s) = .ok i ∧ a = (effectiveAddress s m).toNat ∧
      i ∈ [.movRm32R32 (.mem m) r, .movRm32Imm32 (.mem m) imm])

/-- R82, over all instructions: a step answers a next state or a fault, and nothing else. A next state differs from the
old one in `pc` and in at most one register or one doubleword, those of the decoded instruction, and a stored
doubleword lies inside memory. -/
def Obligations.StepOutcomes : Prop :=
  ∀ s : State,
    (∃ i t, decode (instrBytes s) = .ok i ∧ step s = .next t ∧ Frame s t (destReg i) (storeAddress s i) ∧
      (destReg i = none ∨ storeAddress s i = none) ∧ ∀ a, storeAddress s i = some a → a + 4 ≤ s.mem.size) ∨
    ∃ f, step s = .fault f

/-- R18: FLAGS is never read: with another value in it, a step does the same and keeps that value. -/
def Obligations.FlagsAreNeverRead : Prop :=
  ∀ (s : State) (f : Word), step { s with flags := f } =
    match step s with
    | .next t => .next { t with flags := f }
    | .fault e => .fault e
    | .refused r => .refused r

/-! ### Invariants -/

/-- Every step, from every state that meets the invariant, keeps it: memory stays in canonical form (the model's
choice, log 10) with a legal size (D10), and FLAGS stays 0 (R18; the 0 at reset is D9). -/
def Obligations.StepKeepsInvariant : Prop :=
  ∀ s t : State, s.Inv → step s = .next t → t.Inv

/-- The state after reset meets the invariant; so does the state after `Reset` with any size in R4's range (D10). The
canonical form is the model's choice (log 10), and so are the parameters of `State.reset` (log 1, log 2). -/
def Obligations.ResetMeetsInvariant : Prop :=
  State.reset.Inv ∧
  ∀ (size : Nat) (eip esp : Word), 1 ≤ size → size ≤ 2 ^ 32 → (State.construct size eip esp).Inv

/-- Every state that a launched machine reaches, after any number of steps, meets the invariant and has the memory size
it was launched with (R4: the parameters never change). The invariant's canonical form is the model's choice (log 10);
its size range is D10, and FLAGS 0 is D9. A launch without meaning is refused (D15, log 4). -/
def Obligations.ReachableStatesMeetInvariant : Prop :=
  ∀ (p : LaunchParams) (s t : State) (n : Nat), launch p = .next s → steps n s = .next t →
    t.Inv ∧ t.mem.size = p.memSize

/-! ### Reset, load, the end of a run, the dump -/

/-- R24, R160 (FLAGS 0 is D9): every piece of state after `Reset`, for every choice of the parameters; for a size
outside R4's range that is the model's choice (log 12). -/
def Obligations.ResetValues : Prop :=
  ∀ (size : Nat) (eip esp : Word),
    (∀ r, r ≠ .esp → (State.construct size eip esp).reg r = 0#32) ∧
    (State.construct size eip esp).reg .esp = esp ∧ (State.construct size eip esp).flags = 0#32 ∧
    (∀ a, (State.construct size eip esp).mem.byteAt a = 0#8) ∧
    (State.construct size eip esp).mem.size = size ∧ (State.construct size eip esp).pc = eip

/-- R162 (the refusal of an image that does not fit is D15): `Load` places the image, changes nothing else, and is
refused exactly when the image does not fit. -/
def Obligations.LoadOverlaysImage : Prop :=
  ∀ (origin : Nat) (image : List Byte) (s : State),
    (origin + image.length ≤ s.mem.size → ∃ t, load origin image s = .next t ∧
      (∀ i b, image[i]? = some b → t.mem.byteAt (origin + i) = b) ∧
      (∀ a, a < origin ∨ origin + image.length ≤ a → t.mem.byteAt a = s.mem.byteAt a) ∧
      t.mem.size = s.mem.size ∧ t.regs = s.regs ∧ t.flags = s.flags ∧ t.pc = s.pc) ∧
    (s.mem.size < origin + image.length → load origin image s = .refused .imageDoesNotFit)

/-- R164 (the loop is D11): why the driver's loop stops. At the limit `pc` has reached it; at zero `pc` is 0; after a
fault the state is one whose step returns that fault (R134), and stepping it again returns it again (R137, D19). No run
is refused. A limit above R4's range runs as 2^32, which is the model's choice (log 11). -/
def Obligations.RunStopsForItsReason : Prop :=
  ∀ (limit n : Nat) (s t : State),
    (runLoop limit n s = .stopped .limit t → limit ≤ t.pc.toNat) ∧
    (runLoop limit n s = .stopped .zero t → t.pc = 0#32) ∧
    (∀ f, runLoop limit n s = .stopped (.fault f) t → step t = .fault f ∧ t.pc.toNat < limit) ∧
    ∀ r, runLoop limit n s ≠ .refused r t

/-- R22 (D12: ten lines, and the letter case is a parameter). The dump is ten lines: the nine the rule writes out, in
the fixed order, and a tenth, whose text the spec does not give. That text is a free value that stands last (log 3, the
model's choice), and the statement holds whatever it is. FLAGS and memory are not printed. Each of the
nine is the name, exactly eight digits that write the value, and the name in parentheses. -/
def Obligations.DumpLines : Prop :=
  (∀ (c : HexCase) (s : State), ∃ tenth : String, dump c s =
    [dumpLine c "EAX" (s.reg .eax), dumpLine c "ECX" (s.reg .ecx), dumpLine c "EDX" (s.reg .edx),
     dumpLine c "EBX" (s.reg .ebx), dumpLine c "ESP" (s.reg .esp), dumpLine c "EBP" (s.reg .ebp),
     dumpLine c "ESI" (s.reg .esi), dumpLine c "EDI" (s.reg .edi), dumpLine c "EIP" s.pc, tenth]) ∧
  (∀ (c : HexCase) (s : State) (f : Word) (m : Memory), dump c { s with flags := f, mem := m } = dump c s) ∧
  ∀ (c : HexCase) (name : String) (v : Word), ∃ digits : List Char,
    dumpLine c name v = name ++ " = " ++ String.ofList digits ++ " (" ++ name ++ ")" ∧
    digits.length = 8 ∧ (∀ d ∈ digits, d ∈ hexAlphabet c) ∧ hexValue c digits = v.toNat
end

