-- ==== Sys2Proof/Laws/Decode.lean ====
section
/-! SUPPORT. The laws of the decoder's and encoder's helpers: bit fields, byte order, and one specification lemma per
fetch over an instruction's bytes. -/

namespace Sys2Proof

@[simp] theorem Reg.ofBits_bits (r : Reg) : Reg.ofBits r.bits = r := by cases r <;> rfl

@[simp] theorem Reg.bits_ofBits (b : BitVec 3) : (Reg.ofBits b).bits = b := by revert b; decide

theorem Reg.ofBits_inj {a b : BitVec 3} (h : Reg.ofBits a = Reg.ofBits b) : a = b := by
  simpa using congrArg Reg.bits h

@[simp] theorem modeField_modrmByte (mode : BitVec 2) (reg rm : BitVec 3) : modeField (modrmByte mode reg rm) = mode := by
  revert mode reg rm; decide

@[simp] theorem regField_modrmByte (mode : BitVec 2) (reg rm : BitVec 3) : regField (modrmByte mode reg rm) = reg := by
  revert mode reg rm; decide

@[simp] theorem rmField_modrmByte (mode : BitVec 2) (reg rm : BitVec 3) : rmField (modrmByte mode reg rm) = rm := by
  revert mode reg rm; decide

/-- A ModRM byte is its three fields: no bit is dropped (R52). -/
theorem modrmByte_fields (b : Byte) : modrmByte (modeField b) (regField b) (rmField b) = b := by
  apply BitVec.eq_of_getLsbD_eq
  intro i hi
  simp only [modrmByte, modeField, regField, rmField, BitVec.getLsbD_append, BitVec.getLsbD_extractLsb']
  by_cases h0 : i < 3 <;> by_cases h1 : i < 6 <;> grind

/-- The bytes of a doubleword determine it. -/
theorem le32_leBytes (v : Word) : le32 (byteOf v 0) (byteOf v 1) (byteOf v 2) (byteOf v 3) = v := by
  apply BitVec.eq_of_getLsbD_eq
  intro i hi
  simp only [le32, byteOf, BitVec.getLsbD_append, BitVec.getLsbD_extractLsb']
  by_cases h0 : i < 8 <;> by_cases h1 : i < 16 <;> by_cases h2 : i < 24 <;> grind

/-- A doubleword determines its bytes. -/
theorem leBytes_le32 (b0 b1 b2 b3 : Byte) : leBytes (le32 b0 b1 b2 b3) = [b0, b1, b2, b3] := by
  simp only [leBytes, List.cons.injEq, and_true]
  refine ⟨?_, ?_, ?_, ?_⟩ <;>
    (apply BitVec.eq_of_getLsbD_eq; intro i hi
     simp only [le32, byteOf, BitVec.getLsbD_append, BitVec.getLsbD_extractLsb']; grind)

@[simp] theorem length_leBytes (v : Word) : (leBytes v).length = 4 := rfl

/-- The number of bytes the encoder gives a ModRM byte and its displacement is M (R55). -/
@[simp] theorem length_encodeModRM (reg : BitVec 3) (d : RM32) : (encodeModRM reg d).length = d.modrmLength := by
  rcases d with r | (b | ⟨b, disp⟩ | ⟨b, disp⟩ | disp) <;> rfl

/-- M is 1, 2 or 5 (R55). -/
theorem RM32.modrmLength_cases (d : RM32) : d.modrmLength = 1 ∨ d.modrmLength = 2 ∨ d.modrmLength = 5 := by
  rcases d with r | (b | ⟨b, disp⟩ | ⟨b, disp⟩ | disp) <;> simp [RM32.modrmLength]

theorem fetchByte_eq_ok {bs : List Byte} {k : Nat} {b : Byte} : fetchByte bs k = .ok b ↔ bs[k]? = some b := by
  unfold fetchByte
  cases bs[k]? <;> simp

/-- All that a doubleword fetch can do: the four bytes exist, or the fault names the whole access. -/
theorem fetchDword_eq_ok {bs : List Byte} {k : Nat} {v : Word} :
    fetchDword bs k = .ok v ↔ ∃ b0 b1 b2 b3, bs[k]? = some b0 ∧ bs[k + 1]? = some b1 ∧ bs[k + 2]? = some b2 ∧
      bs[k + 3]? = some b3 ∧ v = le32 b0 b1 b2 b3 := by
  unfold fetchDword
  cases bs[k]? <;> cases bs[k + 1]? <;> cases bs[k + 2]? <;> cases bs[k + 3]? <;> simp [eq_comm]

theorem fetchDword_cons (a : Byte) (bs : List Byte) (k : Nat) : fetchDword (a :: bs) (k + 1) =
    (match fetchDword bs k with | .ok v => .ok v | .error _ => .error (.outside (k + 1) .dword)) := by
  simp only [fetchDword, List.getElem?_cons_succ, Nat.add_right_comm k 1]
  cases bs[k]? <;> cases bs[k + 1]? <;> cases bs[k + 2]? <;> cases bs[k + 3]? <;> rfl

/-- The doubleword an encoder laid down is the one the decoder fetches. -/
@[simp] theorem fetchDword_leBytes (v : Word) (rest : List Byte) : fetchDword (leBytes v ++ rest) 0 = .ok v := by
  simp [fetchDword, leBytes, le32_leBytes]

end Sys2Proof
end

