-- ==== Sys2Proof/Laws/Memory.lean ====
section
/-! SUPPORT. The laws of memory: read after write, the canonical form, and one specification lemma per primitive. -/

namespace Sys2Proof.Machine

/-! ### Cells -/

theorem cellAt_eraseCell (cells : List Host.Cell) (a b : Nat) :
    cellAt (eraseCell cells a) b = if b = a then unwrittenByte else cellAt cells b := by
  induction cells with
  | nil => simp [eraseCell, cellAt]
  | cons c rest ih =>
    obtain ⟨k, w⟩ := c
    by_cases hk : k = a <;> by_cases hb : b = a <;> by_cases hkb : k = b <;>
      simp_all [eraseCell, cellAt]

theorem cellAt_insertCell (cells : List Host.Cell) (a b : Nat) (v : Byte) (hno : ∀ w, (a, w) ∉ cells) :
    cellAt (insertCell cells a v) b = if b = a then v else cellAt cells b := by
  induction cells with
  | nil => simp [insertCell, cellAt, eq_comm]
  | cons c rest ih =>
    obtain ⟨k, w⟩ := c
    have hk : k ≠ a := fun e => hno w (by simp [e])
    have ih' := ih (fun w' hw => hno w' (by simp [hw]))
    simp only [insertCell]
    split
    · simp [cellAt, eq_comm]
    · by_cases hb : b = a
      · subst hb; simp [cellAt, hk, ih']
      · simp [cellAt, ih', hb]

theorem not_mem_eraseCell (cells : List Host.Cell) (a : Nat) (w : Byte) : (a, w) ∉ eraseCell cells a := by
  induction cells with
  | nil => simp [eraseCell]
  | cons c rest ih =>
    obtain ⟨k, u⟩ := c
    by_cases hk : k = a
    · simpa [eraseCell, hk] using ih
    · simp only [eraseCell, hk, if_false, List.mem_cons, not_or, Prod.mk.injEq]
      exact ⟨fun h => hk h.1.symm, ih⟩

/-- A written byte reads back, and no other byte changes: for every list, canonical or not. -/
theorem cellAt_writeCell (cells : List Host.Cell) (a b : Nat) (v : Byte) :
    cellAt (writeCell cells a v) b = if b = a then v else cellAt cells b := by
  unfold writeCell
  split
  · next h => rw [cellAt_eraseCell, h]
  · rw [cellAt_insertCell _ _ _ _ (not_mem_eraseCell cells a), cellAt_eraseCell]
    by_cases hb : b = a <;> simp [hb]

/-! ### Bytes and doublewords -/

@[simp] theorem Memory.setByte_size (m : Memory) (a : Nat) (v : Byte) : (m.setByte a v).size = m.size := rfl

theorem Memory.byteAt_setByte (m : Memory) (a b : Nat) (v : Byte) :
    (m.setByte a v).byteAt b = if b = a then v else m.byteAt b := cellAt_writeCell _ _ _ _

@[simp] theorem Memory.setDword_size (m : Memory) (a : Nat) (v : Word) : (m.setDword a v).size = m.size := rfl

/-- A store changes its four bytes and no other byte (R31). -/
theorem Memory.byteAt_setDword (m : Memory) (a b : Nat) (v : Word) :
    (m.setDword a v).byteAt b = if a ≤ b ∧ b < a + 4 then byteOf v (b - a) else m.byteAt b := by
  simp only [Memory.setDword, Memory.byteAt_setByte]
  by_cases h : a ≤ b ∧ b < a + 4
  · obtain ⟨k, rfl⟩ := Nat.exists_eq_add_of_le h.1
    have hk : k = 0 ∨ k = 1 ∨ k = 2 ∨ k = 3 := by omega
    rcases hk with rfl | rfl | rfl | rfl <;> simp
  · rw [if_neg h, if_neg (by omega), if_neg (by omega), if_neg (by omega), if_neg (by omega)]

/-- A load after a store at the same address gives the stored value. -/
@[simp] theorem Memory.dwordAt_setDword (m : Memory) (a : Nat) (v : Word) : (m.setDword a v).dwordAt a = v := by
  simp [Memory.dwordAt, Memory.byteAt_setDword, le32_leBytes]

/-! ### The canonical form -/

/-- Lowering the bound below the first entry keeps the canonical form. -/
theorem canonicalCells_weaken {size a b : Nat} {cells : List Host.Cell} (hab : a ≤ b)
    (h : canonicalCells size (some b) cells = true) : canonicalCells size (some a) cells = true := by
  cases cells with
  | nil => rfl
  | cons c rest =>
    obtain ⟨k, w⟩ := c
    simp only [canonicalCells, Bool.and_eq_true, decide_eq_true_eq] at h ⊢
    exact ⟨⟨⟨by omega, h.1.1.2⟩, h.1.2⟩, h.2⟩

theorem canonicalCells_none {size a : Nat} {cells : List Host.Cell}
    (h : canonicalCells size (some a) cells = true) : canonicalCells size none cells = true := by
  cases cells with
  | nil => rfl
  | cons c rest => simpa [canonicalCells] using And.intro (And.intro (by simp_all [canonicalCells]) (by simp_all [canonicalCells])) (by simp_all [canonicalCells])

theorem canonicalCells_eraseCell {size a : Nat} : ∀ {low : Option Nat} {cells : List Host.Cell},
    canonicalCells size low cells = true → canonicalCells size low (eraseCell cells a) = true
  | _, [], _ => rfl
  | low, (k, w) :: rest, h => by
    simp only [canonicalCells, Bool.and_eq_true] at h
    have ih := canonicalCells_eraseCell (a := a) h.2
    simp only [eraseCell]
    split
    · cases low with
      | none => exact canonicalCells_none ih
      | some l => exact canonicalCells_weaken (by simp at h; omega) ih
    · simp only [canonicalCells, Bool.and_eq_true]
      exact ⟨h.1, ih⟩

theorem canonicalCells_insertCell {size a : Nat} {v : Byte} (ha : a < size) (hv : v ≠ unwrittenByte) :
    ∀ {low : Option Nat} {cells : List Host.Cell}, (∀ l, low = some l → l < a) → (∀ w, (a, w) ∉ cells) →
      canonicalCells size low cells = true → canonicalCells size low (insertCell cells a v) = true
  | low, [], hlow, _, _ => by
    cases low <;> simp_all [insertCell, canonicalCells]
  | low, (k, w) :: rest, hlow, hno, h => by
    have hk : k ≠ a := fun e => hno w (by simp [e])
    simp only [canonicalCells, Bool.and_eq_true] at h
    simp only [insertCell]
    split
    · next hak =>
      cases low with
      | none => simpa [canonicalCells, ha, hv, hak, h.2] using h.1
      | some l =>
        have hl := hlow l rfl
        have hk' : k < size ∧ w ≠ unwrittenByte := by simpa using And.intro h.1.1.2 h.1.2
        simp [canonicalCells, ha, hv, hak, h.2, hl, hk']
    · next hak =>
      simp only [canonicalCells, Bool.and_eq_true]
      refine ⟨h.1, canonicalCells_insertCell ha hv ?_ (fun w' hw => hno w' (by simp [hw])) h.2⟩
      rintro l ⟨⟩
      omega

/-- Writing a byte inside memory keeps the canonical form. -/
theorem Memory.setByte_wf {m : Memory} {a : Nat} {v : Byte} (h : m.wf = true) (ha : a < m.size) :
    (m.setByte a v).wf = true := by
  simp only [Memory.wf, Bool.and_eq_true] at h ⊢
  refine ⟨h.1, ?_⟩
  have he := canonicalCells_eraseCell (a := a) h.2
  show canonicalCells m.size none (writeCell m.cells a v) = true
  unfold writeCell
  split
  · exact he
  · next hv => exact canonicalCells_insertCell ha hv (by simp) (not_mem_eraseCell _ _) he

/-- A store inside memory keeps the canonical form. -/
theorem Memory.setDword_wf {m : Memory} {a : Nat} {v : Word} (h : m.wf = true) (ha : a + 4 ≤ m.size) :
    (m.setDword a v).wf = true := by
  unfold Memory.setDword
  exact Memory.setByte_wf (Memory.setByte_wf (Memory.setByte_wf (Memory.setByte_wf h (by omega))
    (by simp; omega)) (by simp; omega)) (by simp; omega)

@[simp] theorem Memory.setBytes_size (m : Memory) (a : Nat) (bs : List Byte) : (m.setBytes a bs).size = m.size := by
  induction bs generalizing m a with
  | nil => rfl
  | cons b rest ih =>
    simp only [Memory.setBytes]
    split
    · rw [ih]; rfl
    · rfl

/-- Laying bytes in memory keeps the canonical form: `load` and `withFetchWord` do. -/
theorem Memory.setBytes_wf {m : Memory} (a : Nat) (bs : List Byte) (h : m.wf = true) :
    (m.setBytes a bs).wf = true := by
  induction bs generalizing m a with
  | nil => exact h
  | cons b rest ih =>
    simp only [Memory.setBytes]
    split
    · next ha => exact ih _ (Memory.setByte_wf h ha)
    · exact h

/-- The memory of the state after reset is in canonical form. -/
theorem State.reset_mem_wf : State.reset.mem.wf = true := by decide

/-! ### The primitives -/

theorem Memory.valid_iff (m : Memory) (a : Nat) (n : Width) : m.valid a n = true ↔ a + n.bytes ≤ m.size := by
  simp [Memory.valid]

/-- `readByte` as one test of the bounds (R34, R36). -/
theorem readByte_eq (k : AccessKind) (m : Memory) (a : Nat) :
    readByte k m a = if a + 1 ≤ m.size then .ok (m.byteAt a) else .error (.bounds k a .byte) := by
  have := m.valid_iff a .byte
  unfold readByte raise
  split <;> simp_all [Width.bytes]

/-- `readDword` as one test of the bounds (R34, R36). -/
theorem readDword_eq (k : AccessKind) (m : Memory) (a : Nat) :
    readDword k m a = if a + 4 ≤ m.size then .ok (m.dwordAt a) else .error (.bounds k a .dword) := by
  have := m.valid_iff a .dword
  unfold readDword raise
  split <;> simp_all [Width.bytes]

/-- `writeDword` as one test of the bounds (R35). -/
theorem writeDword_eq (m : Memory) (a : Nat) (v : Word) :
    writeDword m a v = if a + 4 ≤ m.size then .ok (m.setDword a v) else .error (.bounds .write a .dword) := by
  have := m.valid_iff a .dword
  unfold writeDword raise
  split <;> simp_all [Width.bytes]

/-- All that `readDword` can do. -/
theorem readDword_eq_ok {k : AccessKind} {m : Memory} {a : Nat} {v : Word} :
    readDword k m a = .ok v ↔ m.valid a .dword = true ∧ v = m.dwordAt a := by
  unfold readDword raise
  split
  · next h => simp only [h, true_and, Except.ok.injEq]; exact eq_comm
  · next h => simp [h]

/-- All that `writeDword` can do. -/
theorem writeDword_eq_ok {m m' : Memory} {a : Nat} {v : Word} :
    writeDword m a v = .ok m' ↔ m.valid a .dword = true ∧ m' = m.setDword a v := by
  unfold writeDword raise
  split
  · next h => simp only [h, true_and, Except.ok.injEq]; exact eq_comm
  · next h => simp [h]

/-- A store that succeeds keeps the canonical form and the size. -/
theorem writeDword_wf {m m' : Memory} {a : Nat} {v : Word} (h : m.wf = true) (hw : writeDword m a v = .ok m') :
    m'.wf = true := by
  obtain ⟨hv, rfl⟩ := writeDword_eq_ok.1 hw
  exact Memory.setDword_wf h ((Memory.valid_iff _ _ _).1 hv)

end Sys2Proof.Machine
end

