-- ==== Sys2Proof/Laws/State.lean ====
section
/-! SUPPORT. One lemma per field per update of the state, and the register file's read-after-write laws. -/

namespace Sys2Proof.Machine

variable (s : State) (r q : Reg) (v p : Word) (n : Nat)

@[simp] theorem State.setReg_regs : (s.setReg r v).regs = s.regs.set r v := rfl
@[simp] theorem State.setReg_flags : (s.setReg r v).flags = s.flags := rfl
@[simp] theorem State.setReg_mem : (s.setReg r v).mem = s.mem := rfl
@[simp] theorem State.setReg_pc : (s.setReg r v).pc = s.pc := rfl
@[simp] theorem State.setPc_regs : (s.setPc p).regs = s.regs := rfl
@[simp] theorem State.setPc_flags : (s.setPc p).flags = s.flags := rfl
@[simp] theorem State.setPc_mem : (s.setPc p).mem = s.mem := rfl
@[simp] theorem State.setPc_pc : (s.setPc p).pc = p := rfl
@[simp] theorem State.setPc_reg : (s.setPc p).reg r = s.reg r := rfl
@[simp] theorem State.advance_regs : (s.advance n).regs = s.regs := rfl
@[simp] theorem State.advance_flags : (s.advance n).flags = s.flags := rfl
@[simp] theorem State.advance_mem : (s.advance n).mem = s.mem := rfl
@[simp] theorem State.advance_pc : (s.advance n).pc = s.pc + BitVec.ofNat 32 n := rfl
@[simp] theorem State.advance_reg : (s.advance n).reg r = s.reg r := rfl
@[simp] theorem State.withMem_reg (m : Memory) : State.reg { s with mem := m } r = s.reg r := rfl
@[simp] theorem State.withFlags_reg (f : Word) : State.reg { s with flags := f } r = s.reg r := rfl

/-- A register reads as what was last written to it, and no other register changes (R12). -/
theorem RegFile.get_set (f : RegFile) : (f.set r v).get q = if q = r then v else f.get q := by
  cases r <;> cases q <;> rfl

@[simp] theorem RegFile.get_set_same (f : RegFile) : (f.set r v).get r = v := by
  simp [RegFile.get_set]

@[simp] theorem RegFile.get_set_other (f : RegFile) (h : q ≠ r) : (f.set r v).get q = f.get q := by
  simp [RegFile.get_set, h]

theorem State.setReg_reg : (s.setReg r v).reg q = if q = r then v else s.reg q :=
  RegFile.get_set r q v s.regs

@[simp] theorem State.setReg_reg_same : (s.setReg r v).reg r = v := by
  simp [State.setReg_reg]

@[simp] theorem State.setReg_reg_other (h : q ≠ r) : (s.setReg r v).reg q = s.reg q := by
  simp [State.setReg_reg, h]

@[simp] theorem finish_ok : finish (.ok s) = .next s := rfl
@[simp] theorem finish_error (f : Fault) : finish (.error f) = .fault f := rfl

/-- What `finish` can do, once. -/
theorem finish_eq_next {e : Except Fault State} {t : State} : finish e = .next t ↔ e = .ok t := by
  cases e <;> simp

theorem finish_ne_refused (e : Except Fault State) (r : Refusal) : finish e ≠ .refused r := by
  cases e <;> simp

end Sys2Proof.Machine
end

