-- ==== Sys2Proof/Laws/Operands.lean ====
section
/-! SUPPORT. Everything the shared operand operations can do, said once. -/

namespace Sys2Proof.Machine

/-- The state with `v` written to the operand and nothing else changed. -/
def writtenRM32 (s : State) (d : RM32) (v : Word) : State :=
  match d with
  | .reg r => s.setReg r v
  | .mem m => { s with mem := s.mem.setDword (effectiveAddress s m).toNat v }

@[simp] theorem writtenRM32_flags (s : State) (d : RM32) (v : Word) : (writtenRM32 s d v).flags = s.flags := by
  cases d <;> rfl

@[simp] theorem writtenRM32_pc (s : State) (d : RM32) (v : Word) : (writtenRM32 s d v).pc = s.pc := by
  cases d <;> rfl

@[simp] theorem writtenRM32_size (s : State) (d : RM32) (v : Word) : (writtenRM32 s d v).mem.size = s.mem.size := by
  cases d <;> rfl

/-- An operand read answers the operand's value when it is valid, and only then. -/
theorem readRM32_eq_ok {s : State} {d : RM32} {v : Word} :
    readRM32 s d = .ok v ↔ operandValid s d = true ∧ v = operandValue s d := by
  cases d with
  | reg r => simp [readRM32, operandValid, operandValue, eq_comm]
  | mem m => exact readDword_eq_ok

/-- An operand write changes the operand alone, when it is valid, and answers nothing else. -/
theorem writeRM32_eq_ok {s t : State} {d : RM32} {v : Word} :
    writeRM32 s d v = .ok t ↔ operandValid s d = true ∧ t = writtenRM32 s d v := by
  cases d with
  | reg r => simp [writeRM32, operandValid, writtenRM32, eq_comm]
  | mem m =>
    simp only [writeRM32, operandValid, writtenRM32, writeDword, raise]
    split
    · next h => simp only [h, true_and]; exact ⟨fun e => (Except.ok.inj e).symm, fun e => e ▸ rfl⟩
    · next h => simp [h, bind, Except.bind]

/-- All that a read-modify-write instruction can do. -/
theorem updateRM32_eq_next {s t : State} {d : RM32} {f : Word → Word} {len : Nat} :
    updateRM32 s d f len = .next t ↔
      operandValid s d = true ∧ t = (writtenRM32 s d (f (operandValue s d))).advance len := by
  unfold updateRM32
  rw [finish_eq_next]
  by_cases hv : operandValid s d = true
  · rw [readRM32_eq_ok.2 ⟨hv, rfl⟩]
    simp only [bind, Except.bind, writeRM32_eq_ok.2 ⟨hv, rfl⟩, pure, Except.pure, Except.ok.injEq, hv, true_and]
    exact eq_comm
  · cases hr : readRM32 s d with
    | ok v => exact absurd (readRM32_eq_ok.1 hr).1 hv
    | error e => simp [bind, Except.bind, hv]

/-- All that a store can do. -/
theorem storeRM32_eq_next {s t : State} {d : RM32} {v : Word} {len : Nat} :
    storeRM32 s d v len = .next t ↔ operandValid s d = true ∧ t = (writtenRM32 s d v).advance len := by
  unfold storeRM32
  rw [finish_eq_next]
  by_cases hv : operandValid s d = true
  · simp only [bind, Except.bind, writeRM32_eq_ok.2 ⟨hv, rfl⟩, pure, Except.pure, Except.ok.injEq, hv, true_and]
    exact eq_comm
  · cases hr : writeRM32 s d v with
    | ok v => exact absurd (writeRM32_eq_ok.1 hr).1 hv
    | error e => simp [bind, Except.bind, hv]

/-- All that a load can do. -/
theorem execMovLoad_eq_next {s t : State} {r : Reg} {d : RM32} :
    execMovLoad r d s = .next t ↔
      operandValid s d = true ∧ t = (s.setReg r (operandValue s d)).advance (1 + d.modrmLength) := by
  unfold execMovLoad
  rw [finish_eq_next]
  by_cases hv : operandValid s d = true
  · rw [readRM32_eq_ok.2 ⟨hv, rfl⟩]
    simp only [bind, Except.bind, pure, Except.pure, Except.ok.injEq, hv, true_and]
    exact eq_comm
  · cases hr : readRM32 s d with
    | ok v => exact absurd (readRM32_eq_ok.1 hr).1 hv
    | error e => simp [bind, Except.bind, hv]

/-- A write to the operand keeps the canonical form of memory. -/
theorem writtenRM32_wf {s : State} {d : RM32} {v : Word} (h : s.mem.wf = true) (hv : operandValid s d = true) :
    (writtenRM32 s d v).mem.wf = true := by
  cases d with
  | reg r => exact h
  | mem m => exact Memory.setDword_wf h ((Memory.valid_iff _ _ _).1 hv)

end Sys2Proof.Machine
end

