-- ==== Sys2Proof/Laws/PerInstr.lean ====
section
/-! SUPPORT. Statements made of every instruction as syntax, one lemma per constructor. -/

/-- The encoder lays down exactly `Instr.length` bytes, 2 to 10 of them (spec/30_encoding.md R50, R66). -/
def Sys2Proof.Laws.EncodeLength.Statement (i : Sys2Proof.Instr) : Prop :=
  i.encode.length = i.length ∧ 2 ≤ i.length ∧ i.length ≤ Sys2Proof.maxInstrBytes

namespace Sys2Proof.Laws.EncodeLength

/-- The bound every ModRM format meets: `fixed` bytes beside the ModRM bytes. -/
theorem bounds (d : RM32) {fixed : Nat} (h1 : 1 ≤ fixed) (h5 : fixed ≤ 5) :
    2 ≤ fixed + d.modrmLength ∧ fixed + d.modrmLength ≤ maxInstrBytes := by
  rcases d.modrmLength_cases with h | h | h <;> rw [h] <;> unfold maxInstrBytes <;> omega

theorem addRm32R32 (d : RM32) (r : Reg) : Statement (.addRm32R32 d r) :=
  ⟨by simp [Instr.encode, Instr.encodeWith, Instr.length, Nat.add_comm], bounds d (by omega) (by omega)⟩

theorem subRm32Imm8 (d : RM32) (imm : Byte) : Statement (.subRm32Imm8 d imm) :=
  ⟨by simp [Instr.encode, Instr.encodeWith, Instr.length]; omega, bounds d (by omega) (by omega)⟩

theorem movRm32R32 (d : RM32) (r : Reg) : Statement (.movRm32R32 d r) :=
  ⟨by simp [Instr.encode, Instr.encodeWith, Instr.length, Nat.add_comm], bounds d (by omega) (by omega)⟩

theorem movR32Rm32 (r : Reg) (d : RM32) : Statement (.movR32Rm32 r d) :=
  ⟨by simp [Instr.encode, Instr.encodeWith, Instr.length, Nat.add_comm], bounds d (by omega) (by omega)⟩

theorem movR32Imm32 (r : Reg) (imm : Word) : Statement (.movR32Imm32 r imm) :=
  ⟨rfl, by simp [Instr.length], by simp [Instr.length, maxInstrBytes]⟩

theorem movRm32Imm32 (d : RM32) (imm : Word) : Statement (.movRm32Imm32 d imm) :=
  ⟨by simp [Instr.encode, Instr.encodeWith, Instr.length]; omega, bounds d (by omega) (by omega)⟩

theorem jmpRel32 (rel : Word) : Statement (.jmpRel32 rel) :=
  ⟨rfl, by simp [Instr.length], by simp [Instr.length, maxInstrBytes]⟩

theorem jmpRel8 (rel : Byte) : Statement (.jmpRel8 rel) :=
  ⟨rfl, by simp [Instr.length], by simp [Instr.length, maxInstrBytes]⟩

theorem incRm32 (d : RM32) : Statement (.incRm32 d) :=
  ⟨by simp [Instr.encode, Instr.encodeWith, Instr.length, Nat.add_comm], bounds d (by omega) (by omega)⟩

end Sys2Proof.Laws.EncodeLength
end

