-- ==== Sys2Proof/Laws/Step.lean ====
section
/-! SUPPORT. What fetching and a step can do, said once. -/

namespace Sys2Proof.Machine

/-- The bytes fetched are the bytes of memory from there on, as far as memory goes. -/
theorem getElem?_bytesFrom (m : Memory) (a n k : Nat) :
    (bytesFrom m a n)[k]? = if k < n ∧ a + k < m.size then some (m.byteAt (a + k)) else none := by
  induction n generalizing a k with
  | zero => simp [bytesFrom]
  | succ n ih =>
    simp only [bytesFrom]
    split
    · cases k with
      | zero => simp_all
      | succ k =>
        rw [List.getElem?_cons_succ, ih]
        congr 1
        · simp [Nat.add_assoc, Nat.add_comm 1 k]
        · rw [Nat.add_assoc, Nat.add_comm 1 k]
    · rw [if_neg (by omega)]; simp

/-- Byte `k` of the instruction at `pc`, for the ten bytes an instruction can have (R36, R50). -/
theorem getElem?_instrBytes (s : State) {k : Nat} (hk : k < maxInstrBytes) :
    (instrBytes s)[k]? = if s.pc.toNat + k < s.mem.size then some (s.mem.byteAt (s.pc.toNat + k)) else none := by
  simp [instrBytes, getElem?_bytesFrom, hk]

/-- A fetched and decoded instruction is one the decoder read at `pc`. -/
theorem fetchDecode_eq_ok {s : State} {i : Instr} : fetchDecode s = .ok i ↔ decode (instrBytes s) = .ok i := by
  unfold fetchDecode raise
  cases decode (instrBytes s) <;> simp

/-- A step that answers a next state executed the instruction decoded at `pc`. -/
theorem step_eq_next {s t : State} : step s = .next t ↔ ∃ i, decode (instrBytes s) = .ok i ∧ exec i s = .next t := by
  simp only [← fetchDecode_eq_ok]
  unfold step
  cases fetchDecode s <;> simp

end Sys2Proof.Machine
end

