-- ==== Sys2Proof/Tests/Slice0.lean ====
section
/-! SUPPORT. Tests against spec/95_test_vectors.md, and for every obligation with hypotheses a concrete case that meets
them. The expected results are the spec's. -/

namespace Sys2Proof.Tests

open Sys2Proof.Machine

/-! ### Helpers -/

/-- A machine with `bytes` stored from `pc` on, everything else 0 (the start of a vector of 95_test_vectors.md). -/
def boot (size : Nat) (pc : Word) (bytes : List Byte) : State :=
  { State.construct size pc 0#32 with mem := ({ size := size, cells := [] } : Memory).setBytes pc.toNat bytes }

/-- The vectors' usual machine: 0x1000 bytes of memory, `pc` 0x10. -/
def vec (bytes : List Byte) : State := boot 0x1000 0x10#32 bytes

/-- The bytes of `s` from `a` on, replaced. -/
def poke (s : State) (a : Nat) (bytes : List Byte) : State := { s with mem := s.mem.setBytes a bytes }

/-- A next state that passes a check. -/
def nextIs (o : Result) (p : State → Bool) : Bool :=
  match o with
  | .next t => p t
  | _ => false

/-- The given fault. -/
def faultIs (o : Result) (f : Fault) : Bool :=
  match o with
  | .fault g => g == f
  | _ => false

/-- The given refusal. -/
def refusedIs (o : Result) (r : Refusal) : Bool :=
  match o with
  | .refused q => q == r
  | _ => false

/-- The decoder's answer is this instruction. -/
def decodesTo (bs : List Byte) (i : Instr) : Bool :=
  match decode bs with
  | .ok j => j == i
  | .error _ => false

/-- The decoder's answer is this error. -/
def decodeFails (bs : List Byte) (e : DecodeError) : Bool :=
  match decode bs with
  | .ok _ => false
  | .error f => f == e

/-- The ModRM decoder's answer is this descriptor. -/
def modrmIs (bs : List Byte) (d : Descriptor) : Bool :=
  match decodeModRM bs with
  | .ok e => e == d
  | .error _ => false

/-! ### WellFormed: each check refuses an ill-formed term (R53, R54) -/

theorem test_wf_refuses_esp_base : (Instr.addRm32R32 (.mem (.base .esp)) .eax).wellFormed = false := by decide
theorem test_wf_refuses_bare_ebp : (Instr.incRm32 (.mem (.base .ebp))).wellFormed = false := by decide
theorem test_wf_refuses_esp_disp8 : (Instr.movR32Rm32 .eax (.mem (.baseDisp8 .esp 4#8))).wellFormed = false := by decide
theorem test_wf_refuses_esp_disp32 :
    (Instr.movRm32Imm32 (.mem (.baseDisp32 .esp 4#32)) 0#32).wellFormed = false ∧
    (Instr.subRm32Imm8 (.mem (.baseDisp32 .esp 4#32)) 0#8).wellFormed = false ∧
    (Instr.movRm32R32 (.mem (.baseDisp32 .esp 4#32)) .eax).wellFormed = false := by decide
/-- ESP as a register, `[ebp+disp8]` and the absolute form are legal. -/
theorem test_wf_accepts :
    (Instr.subRm32Imm8 (.reg .esp) 0x10#8).wellFormed = true ∧
    (Instr.movR32Rm32 .esp (.mem (.baseDisp8 .ebp 0#8))).wellFormed = true ∧
    (Instr.movRm32R32 (.mem (.baseDisp32 .ebp 0#32)) .esp).wellFormed = true ∧
    (Instr.addRm32R32 (.mem (.base .edi)) .esp).wellFormed = true ∧
    (Instr.incRm32 (.mem (.absolute 0x200#32))).wellFormed = true := by decide

/-! ### Decode: words written out from the encodings of R51, R55, R58 and the vectors -/

/-- 01 /r: A6 and A8, and A7's four-byte displacement. -/
theorem test_decode_add :
    decodesTo [0x01#8, 0x4B#8, 0xFC#8] (.addRm32R32 (.mem (.baseDisp8 .ebx 0xFC#8)) .ecx) = true ∧
    decodesTo [0x01#8, 0x0D#8, 0x00#8, 0x02#8, 0x00#8, 0x00#8] (.addRm32R32 (.mem (.absolute 0x200#32)) .ecx) = true ∧
    decodesTo [0x01#8, 0x96#8, 0x00#8, 0x01#8, 0x00#8, 0x00#8] (.addRm32R32 (.mem (.baseDisp32 .esi 0x100#32)) .edx) = true := by
  decide
/-- 83 /5 ib: S1 and S7; S9 and S10 are other extensions. -/
theorem test_decode_sub :
    decodesTo [0x83#8, 0xEC#8, 0x10#8] (.subRm32Imm8 (.reg .esp) 0x10#8) = true ∧
    decodesTo [0x83#8, 0xA9#8, 0x04#8, 0x01#8, 0x00#8, 0x00#8, 0xFF#8]
      (.subRm32Imm8 (.mem (.baseDisp32 .ecx 0x104#32)) 0xFF#8) = true ∧
    decodeFails [0x83#8, 0xC0#8, 0x05#8] (.opcode 0x83#8 (some 0#3)) = true ∧
    decodeFails [0x83#8, 0xF8#8, 0x00#8] (.opcode 0x83#8 (some 7#3)) = true := by decide
/-- FF /0: I1 and I6; I7 and I9 are other extensions. -/
theorem test_decode_inc :
    decodesTo [0xFF#8, 0xC3#8] (.incRm32 (.reg .ebx)) = true ∧
    decodesTo [0xFF#8, 0x03#8] (.incRm32 (.mem (.base .ebx))) = true ∧
    decodeFails [0xFF#8, 0xC8#8] (.opcode 0xFF#8 (some 1#3)) = true ∧
    decodeFails [0xFF#8, 0x30#8] (.opcode 0xFF#8 (some 6#3)) = true := by decide
/-- 89 /r is M10, destination in rm; 8B /r is L3, destination in reg; and L5's `[ebp]`. -/
theorem test_decode_mov_directions :
    decodesTo [0x89#8, 0xD8#8] (.movRm32R32 (.reg .eax) .ebx) = true ∧
    decodesTo [0x8B#8, 0xC3#8] (.movR32Rm32 .eax (.reg .ebx)) = true ∧
    decodesTo [0x8B#8, 0x45#8, 0x00#8] (.movR32Rm32 .eax (.mem (.baseDisp8 .ebp 0#8))) = true := by decide
/-- B8+r id: B0 and B7, and the opcodes on either side (R60). -/
theorem test_decode_mov_reg_imm :
    decodesTo [0xB8#8, 0x78#8, 0x56#8, 0x34#8, 0x12#8] (.movR32Imm32 .eax 0x12345678#32) = true ∧
    decodesTo [0xBF#8, 0x78#8, 0x56#8, 0x34#8, 0x12#8] (.movR32Imm32 .edi 0x12345678#32) = true ∧
    decodeFails [0xB7#8, 0x78#8, 0x56#8, 0x34#8, 0x12#8] (.opcode 0xB7#8 none) = true ∧
    decodeFails [0xC0#8] (.opcode 0xC0#8 none) = true := by decide
/-- C7 id: C3, the longest, and C4, whose reg field is 1. -/
theorem test_decode_mov_imm :
    decodesTo [0xC7#8, 0x05#8, 0x00#8, 0x02#8, 0x00#8, 0x00#8, 0x78#8, 0x56#8, 0x34#8, 0x12#8]
      (.movRm32Imm32 (.mem (.absolute 0x200#32)) 0x12345678#32) = true ∧
    decodesTo [0xC7#8, 0x4D#8, 0xFC#8, 0x02#8, 0x00#8, 0x00#8, 0x00#8]
      (.movRm32Imm32 (.mem (.baseDisp8 .ebp 0xFC#8)) 2#32) = true := by decide
/-- E9 cd and EB cb: J9 and J1. -/
theorem test_decode_jmp :
    decodesTo [0xE9#8, 0xEA#8, 0xFF#8, 0xFF#8, 0xFF#8] (.jmpRel32 0xFFFFFFEA#32) = true ∧
    decodesTo [0xEB#8, 0xFE#8] (.jmpRel8 0xFE#8) = true := by decide
/-- A9, M11, L10: the three SIB shapes; U3 to U7: no such opcode. -/
theorem test_decode_refuses :
    decodeFails [0x01#8, 0x04#8] (.addressing 0#2 4#3) = true ∧ decodeFails [0x89#8, 0x44#8] (.addressing 1#2 4#3) = true ∧
    decodeFails [0x8B#8, 0x84#8, 0x24#8] (.addressing 2#2 4#3) = true ∧
    (∀ op ∈ ([0x00#8, 0x0F#8, 0x66#8, 0x90#8, 0xC0#8, 0xC3#8, 0xCD#8, 0xE8#8, 0xFE#8, 0x8A#8, 0x88#8, 0x03#8, 0x29#8, 0x40#8] : List Byte),
      decodeFails [op] (.opcode op none) = true) := by decide
/-- The rows of spec/opcode_table.json, as R67 lays them out, are the rows' instructions. -/
theorem test_table_words :
    decodeTableWord 16 0x0100 = some (.addRm32R32 (.mem (.base .eax)) .eax) ∧
    decodeTableWord 16 0x8328 = some (.subRm32Imm8 (.mem (.base .eax)) 0#8) ∧
    decodeTableWord 16 0x8900 = some (.movRm32R32 (.mem (.base .eax)) .eax) ∧
    decodeTableWord 16 0x8B00 = some (.movR32Rm32 .eax (.mem (.base .eax))) ∧
    decodeTableWord 16 0xB800 = some (.movR32Imm32 .eax 0#32) ∧
    decodeTableWord 16 0xC700 = some (.movRm32Imm32 (.mem (.base .eax)) 0#32) ∧
    decodeTableWord 16 0xE900 = some (.jmpRel32 0#32) ∧
    decodeTableWord 16 0xEB00 = some (.jmpRel8 0#8) ∧
    decodeTableWord 16 0xFF00 = some (.incRm32 (.mem (.base .eax))) ∧
    decodeTableWord 16 0x0000 = none := by decide
/-- Each of them runs as the first instruction after reset. -/
theorem test_table_words_run : ∀ w ∈ [0x0100, 0x8328, 0x8900, 0x8B00, 0xB800, 0xC700, 0xE900, 0xEB00, 0xFF00],
    nextIs (step (State.reset.withFetchWord 16 w)) (fun _ => true) = true := by decide

/-! ### One step: the vectors of 95_test_vectors.md, part 2 -/

/-- A2: the sum wraps. -/
theorem test_add_wraps :
    nextIs (step (((vec [0x01#8, 0xD8#8]).setReg .eax 0xFFFFFFFF#32).setReg .ebx 1#32))
      (fun t => t.reg .eax == 0#32 && t.reg .ebx == 1#32 && t.pc == 0x12#32 && t.flags == 0#32) = true := by decide
/-- A6: a memory destination under a negative displacement. -/
theorem test_add_memory :
    nextIs (step (poke (((vec [0x01#8, 0x4B#8, 0xFC#8]).setReg .ebx 0x204#32).setReg .ecx 0x11223344#32) 0x200
        [0x11#8, 0x11#8, 0x11#8, 0x11#8]))
      (fun t => t.mem.dwordAt 0x200 == 0x22334455#32 && t.mem.byteAt 0x200 == 0x55#8 && t.pc == 0x13#32) = true := by
  decide
/-- S2: imm8 is sign-extended. -/
theorem test_sub_sign_extends :
    nextIs (step (vec [0x83#8, 0xE8#8, 0xFF#8])) (fun t => t.reg .eax == 1#32 && t.pc == 0x13#32) = true := by decide
/-- S14 and S15: the extension is tested before the immediate is fetched, and after the displacement. -/
theorem test_sub_fault_order :
    faultIs (step (boot 0x1000 0xFFE#32 [0x83#8, 0xC0#8])) (.unimplementedOpcode 0x83#8 (some 0#3)) = true ∧
    faultIs (step (boot 0x1000 0xFFE#32 [0x83#8, 0x40#8])) (.bounds .fetch 0x1000 .byte) = true := by decide
/-- I3: no indication of a signed overflow. -/
theorem test_inc_register :
    nextIs (step ((vec [0xFF#8, 0xC7#8]).setReg .edi 0x7FFFFFFF#32))
      (fun t => t.reg .edi == 0x80000000#32 && t.flags == 0#32 && t.pc == 0x12#32) = true := by decide
/-- I6: the carry crosses bytes. -/
theorem test_inc_memory :
    nextIs (step (poke ((vec [0xFF#8, 0x03#8]).setReg .ebx 0x200#32) 0x200 [0xFF#8]))
      (fun t => t.mem.byteAt 0x200 == 0#8 && t.mem.byteAt 0x201 == 1#8 && t.pc == 0x12#32) = true := by decide
/-- M7: a misaligned little-endian store. -/
theorem test_mov_store :
    nextIs (step ((vec [0x89#8, 0x3D#8, 0x01#8, 0x02#8, 0x00#8, 0x00#8]).setReg .edi 0xDEADBEEF#32))
      (fun t => t.mem.byteAt 0x200 == 0#8 && t.mem.byteAt 0x201 == 0xEF#8 && t.mem.byteAt 0x204 == 0xDE#8
        && t.pc == 0x16#32) = true := by decide
/-- M8: a straddling store faults. -/
theorem test_mov_store_straddles :
    faultIs (step (((vec [0x89#8, 0x18#8]).setReg .eax 0xFFD#32).setReg .ebx 1#32)) (.bounds .write 0xFFD .dword) = true := by
  decide
/-- L2: the address is the old value of the destination. -/
theorem test_mov_load :
    nextIs (step (poke ((vec [0x8B#8, 0x00#8]).setReg .eax 0x200#32) 0x200 [0x44#8, 0x33#8, 0x22#8, 0x11#8]))
      (fun t => t.reg .eax == 0x11223344#32 && t.pc == 0x12#32) = true := by decide
/-- L12: the address sum wraps past 2^32. -/
theorem test_mov_load_wraps :
    nextIs (step (poke ((vec [0x8B#8, 0x83#8, 0x04#8, 0x02#8, 0x00#8, 0x00#8]).setReg .ebx 0xFFFFFFFC#32) 0x200 [0x01#8]))
      (fun t => t.reg .eax == 1#32 && t.pc == 0x16#32) = true := by decide
/-- B9: the instruction ends at the last byte of memory. -/
theorem test_mov_reg_imm :
    nextIs (step (boot 0x1000 0xFFB#32 [0xB8#8, 0xEF#8, 0xBE#8, 0xAD#8, 0xDE#8]))
      (fun t => t.reg .eax == 0xDEADBEEF#32 && t.pc == 0x1000#32) = true := by decide
/-- B11: `pc` wraps at the top of a full-size memory. -/
theorem test_mov_reg_imm_wraps :
    nextIs (step (boot (2 ^ 32) 0xFFFFFFFB#32 [0xB8#8, 0x01#8]))
      (fun t => t.reg .eax == 1#32 && t.pc == 0#32) = true := by decide
/-- C1: an immediate stored below the base. -/
theorem test_mov_imm :
    nextIs (step ((vec [0xC7#8, 0x45#8, 0xFC#8, 0x02#8, 0x00#8, 0x00#8, 0x00#8]).setReg .ebp 0x204#32))
      (fun t => t.mem.dwordAt 0x200 == 2#32 && t.pc == 0x17#32) = true := by decide
/-- C11: the reg field is ignored. -/
theorem test_mov_imm_reg_field :
    nextIs (step (vec [0xC7#8, 0xFF#8, 0x44#8, 0x33#8, 0x22#8, 0x11#8]))
      (fun t => t.reg .edi == 0x11223344#32 && t.pc == 0x16#32) = true := by decide
/-- J9 and J11: targets wrap. -/
theorem test_jmp_rel32 :
    nextIs (step (vec [0xE9#8, 0xEA#8, 0xFF#8, 0xFF#8, 0xFF#8])) (fun t => t.pc == 0xFFFFFFFF#32) = true ∧
    nextIs (step (vec [0xE9#8, 0x00#8, 0x00#8, 0x00#8, 0x80#8])) (fun t => t.pc == 0x80000015#32) = true := by decide
/-- J3 and J4: the farthest offsets. -/
theorem test_jmp_rel8 :
    nextIs (step (vec [0xEB#8, 0x7F#8])) (fun t => t.pc == 0x91#32) = true ∧
    nextIs (step (vec [0xEB#8, 0x80#8])) (fun t => t.pc == 0xFFFFFF92#32) = true := by decide
/-- Two lines P1 of part 3 expects of the dump, and R22's example, whatever a tenth line says. -/
theorem test_dump :
    (dump .lower { State.reset with pc := 0#32 })[4]? = some "ESP = 00007c00 (ESP)" ∧
    (dump .lower { State.reset with pc := 0#32 })[8]? = some "EIP = 00000000 (EIP)" ∧
    (dump .lower (State.reset.setReg .eax 5#32))[0]? = some "EAX = 00000005 (EAX)" := by decide
/-- The codes of R130. -/
theorem test_fault_codes : (Fault.bounds .read 0 .byte).code = 1 ∧ (Fault.unimplementedAddressing 0#2 4#3).code = 2 ∧
    (Fault.unimplementedOpcode 0#8 none).code = 3 := by decide
/-- Reset memory is zero, and zero is no instruction (U2): nothing runs before a load (log 7). -/
theorem test_reset_memory_does_not_run : faultIs (step State.reset) (.unimplementedOpcode 0#8 none) = true := by decide

/-! ### Witnesses: for each obligation with hypotheses, a case that meets them all; where it has clauses, one for each,
at a boundary. An obligation whose hypothesis is `decode … = .ok …` is met by the tests of decode above. -/

/-- Reads the value, or nothing. -/
def valueOf {α : Type} : Except Fault α → Option α
  | .ok v => some v
  | .error _ => none

/-- Reads the fault, or nothing. -/
def faultOf {α : Type} : Except Fault α → Option Fault
  | .ok _ => none
  | .error f => some f

/-- Memory of 0x1000 bytes, all zero. -/
def mem0 : Memory := { size := 0x1000, cells := [] }

/-- EBX is 0x200, ECX 0xFFC (the last valid doubleword), EDX 0xFFD (the first invalid one). -/
def regs0 : State := (((vec []).setReg .ebx 0x200#32).setReg .ecx 0xFFC#32).setReg .edx 0xFFD#32

theorem test_witness_DecodeInvertsEncode :
    (Instr.movRm32Imm32 (.mem (.baseDisp32 .edi 0x80000000#32)) 0xFFFFFFFF#32).wellFormed = true ∧
    (Instr.addRm32R32 (.mem (.baseDisp8 .ebp 0x80#8)) .esp).wellFormed = true := by decide

theorem test_witness_EncodeCoversDecode :
    decode [0x8B#8, 0x45#8, 0x00#8] = .ok (.movR32Rm32 .eax (.mem (.baseDisp8 .ebp 0#8))) := by rfl

/-- Each clause's byte: 0x04, 0x18, 0x1D, 0x4B, 0x99, 0xE5. -/
theorem test_witness_ModRMTable :
    (modeField 0x04#8 = 0#2 ∧ rmField 0x04#8 = 4#3) ∧ (modeField 0x18#8 = 0#2 ∧ rmField 0x18#8 = 0#3) ∧
    (modeField 0x1D#8 = 0#2 ∧ rmField 0x1D#8 = 5#3) ∧ (modeField 0x4B#8 = 1#2 ∧ rmField 0x4B#8 = 3#3) ∧
    (modeField 0x99#8 = 2#2 ∧ rmField 0x99#8 = 1#3) ∧ (modeField 0xE5#8 = 3#2 ∧ rmField 0xE5#8 = 5#3) ∧
    (∀ b ∈ ([0x04#8, 0x18#8, 0x1D#8, 0x4B#8, 0x99#8, 0xE5#8] : List Byte),
      (modeField b).toNat = (b.toNat >>> 6) &&& 0b11 ∧ (regField b).toNat = (b.toNat >>> 3) &&& 0b111 ∧
      (rmField b).toNat = b.toNat &&& 0b111) ∧
    modrmIs [0x01#8, 0x18#8] ⟨3#3, .mem (.base .eax)⟩ = true ∧
    modrmIs [0x01#8, 0x1D#8, 0x78#8, 0x56#8, 0x34#8, 0x12#8] ⟨3#3, .mem (.absolute 0x12345678#32)⟩ = true ∧
    modrmIs [0x01#8, 0x4B#8, 0xFC#8] ⟨1#3, .mem (.baseDisp8 .ebx 0xFC#8)⟩ = true ∧
    modrmIs [0x01#8, 0x99#8, 0x78#8, 0x56#8, 0x34#8, 0x12#8] ⟨3#3, .mem (.baseDisp32 .ecx 0x12345678#32)⟩ = true ∧
    modrmIs [0x01#8, 0xE5#8] ⟨4#3, .reg .ebp⟩ = true := by decide

/-- The third clause: 0xE4 names ESP; 0xBC is the last SIB-shaped byte, 0xC4 the first that is not. -/
theorem test_witness_SibShapesFault :
    (modeField 0xE4#8 = 3#2 ∧ rmField 0xE4#8 = 4#3) ∧ modrmIs [0x01#8, 0xE4#8] ⟨4#3, .reg .esp⟩ = true ∧
    decodeFails [0x01#8, 0xBC#8] (.addressing 2#2 4#3) = true ∧ modrmIs [0x01#8, 0xC4#8] ⟨0#3, .reg .esp⟩ = true := by
  decide

theorem test_witness_UnimplementedOpcodes :
    0x00#8 ∉ implementedOpcodes ∧ 0xFE#8 ∉ implementedOpcodes ∧
    (boot 1 0#32 [0xF4#8]).pc.toNat < (boot 1 0#32 [0xF4#8]).mem.size ∧
    (boot 1 0#32 [0xF4#8]).mem.byteAt 0 ∉ implementedOpcodes ∧
    faultIs (step (boot 1 0#32 [0xF4#8])) (.unimplementedOpcode 0xF4#8 none) = true := by decide

/-- Extensions 4 and 6 on either side of 5, and 1 beside 0. -/
theorem test_witness_UnimplementedExtensions :
    modrmIs (instrBytes (vec [0x83#8, 0xE0#8])) ⟨4#3, .reg .eax⟩ = true ∧ (instrBytes (vec [0x83#8, 0xE0#8]))[0]? = some 0x83#8 ∧
    modrmIs (instrBytes (vec [0xFF#8, 0xC8#8])) ⟨1#3, .reg .eax⟩ = true ∧ (instrBytes (vec [0xFF#8, 0xC8#8]))[0]? = some 0xFF#8 ∧
    faultIs (step (vec [0x83#8, 0xE0#8])) (.unimplementedOpcode 0x83#8 (some 4#3)) = true ∧
    faultIs (step (vec [0x83#8, 0xF0#8])) (.unimplementedOpcode 0x83#8 (some 6#3)) = true ∧
    faultIs (step (vec [0xFF#8, 0xC8#8])) (.unimplementedOpcode 0xFF#8 (some 1#3)) = true := by decide

/-- C1 and C4. -/
theorem test_witness_MovImmIgnoresReg :
    modeField 0x45#8 = modeField 0x4D#8 ∧ rmField 0x45#8 = rmField 0x4D#8 ∧ regField 0x45#8 ≠ regField 0x4D#8 := by
  decide

theorem test_witness_OpcodeRowsSelect :
    (Instr.subRm32Imm8 (.reg .esp) 0x10#8).row.selects 0x83EC#16 = true ∧
    decodesTo [0x83#8, 0xEC#8, 0x10#8] (.subRm32Imm8 (.reg .esp) 0x10#8) = true := by decide

/-- The last valid and the first invalid byte and doubleword; the four bytes of a store. -/
theorem test_witness_memory_bounds :
    valueOf (readByte .read mem0 0xFFF) = some 0#8 ∧ faultOf (readByte .read mem0 0x1000) = some (.bounds .read 0x1000 .byte) ∧
    valueOf (readDword .read mem0 0xFFC) = some 0#32 ∧ faultOf (readDword .read mem0 0xFFD) = some (.bounds .read 0xFFD .dword) ∧
    valueOf (writeDword mem0 0xFFC 0xCAFEF00D#32) = some { size := 0x1000, cells := [(0xFFC, 0x0D#8), (0xFFD, 0xF0#8), (0xFFE, 0xFE#8), (0xFFF, 0xCA#8)] } ∧
    faultOf (writeDword mem0 0xFFD 1#32) = some (.bounds .write 0xFFD .dword) := by decide

/-- DwordsAreLittleEndian, ReadAfterWrite: the store succeeds, and its neighbour below does not overlap it. -/
theorem test_witness_ReadAfterWrite :
    writeDword mem0 0xFFC 0xCAFEF00D#32 = .ok (mem0.setDword 0xFFC 0xCAFEF00D#32) ∧
    valueOf (readDword .read (mem0.setDword 0xFFC 0xCAFEF00D#32) 0xFFC) = some 0xCAFEF00D#32 ∧
    valueOf (readDword .read (mem0.setDword 0xFFC 0xCAFEF00D#32) 0xFF8) = some 0#32 := by
  refine ⟨rfl, ?_⟩; decide

/-- The last byte and the last doubleword an instruction can have, both sides of the end of memory. -/
theorem test_witness_FetchReadsMemoryAtPc :
    fetchByte (instrBytes (boot 0x1000 0xFF6#32 [])) 9 = .ok 0#8 ∧
    fetchByte (instrBytes (boot 0x1000 0xFF7#32 [])) 9 = .error (.outside 9 .byte) ∧
    fetchDword (instrBytes (boot 0x1000 0xFF6#32 [])) 6 = .ok 0#32 ∧
    fetchDword (instrBytes (boot 0x1000 0xFF7#32 [])) 6 = .error (.outside 6 .dword) := ⟨rfl, rfl, rfl, rfl⟩

/-- P4's store is seen by the fetch at 0x0A; the byte after the stored four is as it was. -/
theorem test_witness_StoresAreSeenByFetch :
    writeDword (boot 0x100 0#32 [0xC7#8, 0x05#8, 0x0A#8]).mem 0x0A 0x000007B8#32 =
      .ok ((boot 0x100 0#32 [0xC7#8, 0x05#8, 0x0A#8]).mem.setDword 0x0A 0x000007B8#32) ∧
    (instrBytes { boot 0x100 0x0A#32 [] with mem := (boot 0x100 0#32 []).mem.setDword 0x0A 0x000007B8#32 }).take 5 =
      [0xB8#8, 0x07#8, 0x00#8, 0x00#8, 0x00#8] := ⟨rfl, rfl⟩

/-- Two ways to one memory: a byte written and written back to 0, and nothing written. -/
theorem test_witness_CanonicalMemoriesAreEqualData :
    ((mem0.setByte 5 1#8).setByte 5 0#8).wf = true ∧ mem0.wf = true ∧
    ((mem0.setByte 5 1#8).setByte 5 0#8).size = mem0.size ∧
    ∀ a, ((mem0.setByte 5 1#8).setByte 5 0#8).byteAt a = mem0.byteAt a :=
  ⟨by decide, by decide, rfl, fun _ => rfl⟩

/-- The addresses listed after the table of 2.10, absolute 0x80000000 among them. -/
theorem test_effective_addresses :
    effectiveAddress (regs0.setReg .ebp 0x7C00#32) (.baseDisp8 .ebp 0xFC#8) = 0x7BFC#32 ∧
    effectiveAddress regs0 (.baseDisp8 .eax 0xFF#8) = 0xFFFFFFFF#32 ∧
    effectiveAddress (regs0.setReg .ecx 0x300#32) (.baseDisp32 .ecx 0xFFFFFF00#32) = 0x200#32 ∧
    effectiveAddress (regs0.setReg .ebx 0xFFFFFFFC#32) (.baseDisp32 .ebx 0x204#32) = 0x200#32 ∧
    effectiveAddress regs0 (.absolute 0x80000000#32) = 0x80000000#32 := by decide

/-- OperandAccess: a write that succeeds and one that faults, and a read that succeeds. -/
theorem test_witness_OperandAccess :
    faultOf (writeDword regs0.mem (effectiveAddress regs0 (.base .edx)).toNat 1#32) = some (.bounds .write 0xFFD .dword) ∧
    valueOf (writeDword regs0.mem (effectiveAddress regs0 (.base .ecx)).toNat 1#32) = some (regs0.mem.setDword 0xFFC 1#32) ∧
    valueOf (readRM32 regs0 (.mem (.base .ecx))) = some 0#32 ∧ valueOf (readRM32 regs0 (.reg .edx)) = some 0xFFD#32 := by
  decide

/-- The hypothesis of AddResult, SubResult, IncResult, MovStoreResult, MovLoadResult and MovImmResult, for every operand
form, the last valid doubleword among them; and where it fails. -/
theorem test_witness_operandValid :
    operandValid regs0 (.reg .esp) = true ∧ operandValid regs0 (.mem (.base .ecx)) = true ∧
    operandValid regs0 (.mem (.baseDisp8 .edx 0xFF#8)) = true ∧ operandValid regs0 (.mem (.baseDisp32 .ebx 0xDFC#32)) = true ∧
    operandValid regs0 (.mem (.absolute 0xFFC#32)) = true ∧ operandValid regs0 (.mem (.base .edx)) = false := by decide

/-- The values those statements name, at the last valid doubleword (A11, M9). -/
theorem test_witness_results :
    nextIs (exec (.addRm32R32 (.mem (.base .ecx)) .ebx) regs0) (fun t => t.mem.dwordAt 0xFFC == 0x200#32) = true ∧
    nextIs (exec (.subRm32Imm8 (.mem (.base .ecx)) 1#8) regs0) (fun t => t.mem.dwordAt 0xFFC == 0xFFFFFFFF#32) = true ∧
    nextIs (exec (.incRm32 (.mem (.base .ecx))) regs0) (fun t => t.mem.dwordAt 0xFFC == 1#32) = true ∧
    nextIs (exec (.movRm32R32 (.mem (.base .ecx)) .edx) regs0) (fun t => t.mem.dwordAt 0xFFC == 0xFFD#32) = true ∧
    nextIs (exec (.movR32Rm32 .ecx (.mem (.base .ecx))) regs0) (fun t => t.reg .ecx == 0#32) = true ∧
    nextIs (exec (.movRm32Imm32 (.mem (.base .ecx)) 7#32) regs0) (fun t => t.mem.dwordAt 0xFFC == 7#32) = true := by decide

/-- MovRegImmStep's two clauses: B9 fits exactly, B8 is one byte short. -/
theorem test_witness_MovRegImmStep :
    ((boot 0x1000 0xFFB#32 [0xB8#8, 0xEF#8]).mem.byteAt 0xFFB).toNat = 0xB8 + Reg.eax.bits.toNat ∧
    0xFFB + 5 ≤ (boot 0x1000 0xFFB#32 [0xB8#8, 0xEF#8]).mem.size ∧
    (boot 0x1000 0xFFB#32 [0xB8#8, 0xEF#8]).mem.dwordAt 0xFFC = 0xEF#32 ∧
    ((boot 0x1000 0xFFC#32 [0xB8#8]).mem.byteAt 0xFFC).toNat = 0xB8 + Reg.eax.bits.toNat ∧
    (boot 0x1000 0xFFC#32 [0xB8#8]).mem.size < 0xFFC + 5 ∧
    faultIs (step (boot 0x1000 0xFFC#32 [0xB8#8])) (.bounds .fetch 0xFFD .dword) = true := by decide

/-- ReadOperandFaults and WriteOperandFaults: each named instruction at the first invalid doubleword. -/
theorem test_witness_OperandFaults :
    (∀ i ∈ [.addRm32R32 (.mem (.base .edx)) .eax, .subRm32Imm8 (.mem (.base .edx)) 1#8, .incRm32 (.mem (.base .edx)),
      Instr.movR32Rm32 .eax (.mem (.base .edx))], faultIs (exec i regs0) (.bounds .read 0xFFD .dword) = true) ∧
    (∀ i ∈ [.movRm32R32 (.mem (.base .edx)) .eax, Instr.movRm32Imm32 (.mem (.base .edx)) 1#32],
      faultIs (exec i regs0) (.bounds .write 0xFFD .dword) = true) := by decide

/-- The frames and ArithmeticLeavesFlags: every named instruction answers a next state, with a register operand and with
a memory operand. -/
theorem test_witness_frames :
    ∀ i ∈ [.addRm32R32 (.reg .eax) .ebx, .addRm32R32 (.mem (.base .ecx)) .ebx, .subRm32Imm8 (.reg .esp) 1#8,
      .subRm32Imm8 (.mem (.base .ecx)) 1#8, .incRm32 (.reg .eax), .incRm32 (.mem (.base .ecx)),
      .movRm32R32 (.reg .eax) .ebx, .movRm32R32 (.mem (.base .ecx)) .ebx, .movRm32Imm32 (.reg .eax) 1#32,
      .movRm32Imm32 (.mem (.base .ecx)) 1#32, .movR32Rm32 .eax (.reg .ebx), .movR32Rm32 .eax (.mem (.base .ecx)),
      .movR32Imm32 .eax 1#32, .jmpRel32 0x80000000#32, Instr.jmpRel8 0x80#8],
      nextIs (exec i regs0) (fun _ => true) = true := by decide

theorem test_witness_StepRunsTheDecodedInstruction : decode (instrBytes (vec [0xEB#8, 0xFE#8])) = .ok (.jmpRel8 0xFE#8) := rfl

/-- An instruction whose last byte is memory's last. -/
theorem test_witness_StepRunsTheEncodedInstruction :
    (Instr.jmpRel8 0xFE#8).wellFormed = true ∧ 5 + (Instr.jmpRel8 0xFE#8).length ≤ (boot 7 5#32 [0xEB#8, 0xFE#8]).mem.size ∧
    ∀ k b, ((Instr.jmpRel8 0xFE#8).encodeWith 0#3)[k]? = some b → (boot 7 5#32 [0xEB#8, 0xFE#8]).mem.byteAt (5 + k) = b := by
  refine ⟨rfl, by decide, ?_⟩
  rintro (_ | _ | k) b h <;> simp [Instr.encodeWith] at h <;> subst h <;> rfl

/-- FetchFaultOrder, clause by clause, each access one byte short. -/
theorem test_witness_FetchFaultOrder :
    faultIs (step (boot 0x1000 0x1000#32 [])) (.bounds .fetch 0x1000 .byte) = true ∧
    faultIs (step (boot 0x1000 0xFFF#32 [0xF4#8])) (.unimplementedOpcode 0xF4#8 none) = true ∧
    faultIs (step (boot 0x1000 0xFFF#32 [0x01#8])) (.bounds .fetch 0x1000 .byte) = true ∧
    faultIs (step (boot 0x1000 0xFFE#32 [0x83#8, 0x6C#8])) (.unimplementedAddressing 1#2 4#3) = true ∧
    faultIs (step (boot 0x1000 0xFFE#32 [0x83#8, 0x40#8])) (.bounds .fetch 0x1000 .byte) = true ∧
    faultIs (step (boot 0x1000 0xFFB#32 [0x01#8, 0x80#8])) (.bounds .fetch 0xFFD .dword) = true ∧
    faultIs (step (boot 0x1000 0xFFB#32 [0x01#8, 0x05#8])) (.bounds .fetch 0xFFD .dword) = true ∧
    faultIs (step (boot 0x1000 0xFFE#32 [0x83#8, 0xE8#8])) (.bounds .fetch 0x1000 .byte) = true ∧
    faultIs (step (boot 0x1000 0xFFB#32 [0xC7#8, 0x03#8, 0x01#8])) (.bounds .fetch 0xFFD .dword) = true ∧
    faultIs (step (boot 0x1000 0xFFC#32 [0xE9#8])) (.bounds .fetch 0xFFD .dword) = true ∧
    faultIs (step (boot 0x1000 0xFFF#32 [0xEB#8])) (.bounds .fetch 0x1000 .byte) = true := by decide

/-- The descriptors of the seventh and eighth clauses. -/
theorem test_witness_FetchFaultOrder_descriptors :
    modrmIs (instrBytes (boot 0x1000 0xFFE#32 [0x83#8, 0xE8#8])) ⟨5#3, .reg .eax⟩ = true ∧
    modrmIs (instrBytes (boot 0x1000 0xFFB#32 [0xC7#8, 0x03#8, 0x01#8])) ⟨0#3, .mem (.base .ebx)⟩ = true := by decide

/-- BoundsFaultsAreReal: one step for each kind of access (L9's byte addresses are not wrapped). -/
theorem test_witness_BoundsFaultsAreReal :
    faultIs (step (boot 0x1000 0xFFFFFF92#32 [])) (.bounds .fetch 0xFFFFFF92 .byte) = true ∧
    faultIs (step ((vec [0x8B#8, 0x03#8]).setReg .ebx 0xFFFFFFFF#32)) (.bounds .read 0xFFFFFFFF .dword) = true ∧
    faultIs (step ((vec [0xC7#8, 0x03#8, 0x01#8]).setReg .ebx 0xFFD#32)) (.bounds .write 0xFFD .dword) = true := by decide

/-- StepKeepsInvariant: a storing step from a state that meets the invariant. -/
theorem test_witness_StepKeepsInvariant :
    (vec [0xC7#8, 0x05#8, 0x00#8, 0x02#8, 0x00#8, 0x00#8, 0x78#8]).Inv ∧
    nextIs (step (vec [0xC7#8, 0x05#8, 0x00#8, 0x02#8, 0x00#8, 0x00#8, 0x78#8])) (fun t => t.mem.byteAt 0x200 == 0x78#8) = true := by
  decide

/-- The source's scenario E7: a self-jump in seven bytes. -/
def e7 : LaunchParams :=
  { memSize := 7, initEip := 0#32, initEsp := 0#32, loadOrigin := 0, image := [0xB8#8, 0x05#8, 0x00#8, 0x00#8, 0x00#8, 0xEB#8, 0xFE#8] }

/-- ReachableStatesMeetInvariant: the launch succeeds and two steps do. -/
theorem test_witness_ReachableStatesMeetInvariant :
    nextIs (launch e7) (fun s => nextIs (steps 2 s) (fun t => t.reg .eax == 5#32 && t.pc == 5#32)) = true := by decide

/-- ResetMeetsInvariant: both ends of R4's range. -/
theorem test_witness_ResetMeetsInvariant : (State.construct 1 0#32 0#32).Inv ∧ (State.construct (2 ^ 32) 0#32 0#32).Inv := by
  decide

/-- LoadOverlaysImage: an image that fits exactly and one that is a byte too long. -/
theorem test_witness_LoadOverlaysImage :
    nextIs (load 5 [0xEB#8, 0xFE#8] (State.construct 7 0#32 0#32)) (fun t => t.mem.byteAt 6 == 0xFE#8) = true ∧
    refusedIs (load 6 [0xEB#8, 0xFE#8] (State.construct 7 0#32 0#32)) .imageDoesNotFit = true ∧
    refusedIs (launch { e7 with loadOrigin := 7 }) .parameterOutOfRange = true := by decide

/-- RunStopsForItsReason: J15 reaches the limit, J8 the zero sentinel, and F4 faults. -/
theorem test_witness_RunStopsForItsReason :
    (match runLoop 0x1000 2 (vec [0xE9#8, 0xEB#8, 0x0F#8]) with
      | .stopped r t => r == .limit && t.pc == 0x1000#32
      | _ => false) = true ∧
    (match runLoop 0x1000 1 (vec [0xE9#8, 0xEB#8, 0xFF#8, 0xFF#8, 0xFF#8]) with
      | .stopped r t => r == .zero && t.pc == 0#32
      | _ => false) = true ∧
    (match runLoop 0x1000 1 (vec [0xF4#8]) with
      | .stopped r t => r == .fault (.unimplementedOpcode 0xF4#8 none) && t.pc == 0x10#32
      | _ => false) = true := by decide

end Sys2Proof.Tests
end

section
/-! Byte order (R31): the value of a little-endian composition, and the value of each byte a store lays down. -/

namespace Sys2Proof

/-- Appending below a word scales it by the width appended, since the two parts share no bit. -/
theorem toNat_append_eq_mul_add {n k : Nat} (x : BitVec n) (y : BitVec k) :
    (x ++ y).toNat = x.toNat * 2 ^ k + y.toNat := by
  rw [BitVec.toNat_append, ← Nat.shiftLeft_add_eq_or_of_lt y.isLt, Nat.shiftLeft_eq]

/-- The composed doubleword is its bytes' sum in base 256 (R31). -/
theorem toNat_le32 (b0 b1 b2 b3 : Byte) :
    (le32 b0 b1 b2 b3).toNat = b0.toNat + 256 * b1.toNat + 65536 * b2.toNat + 16777216 * b3.toNat := by
  simp only [le32, toNat_append_eq_mul_add]
  omega

/-- Byte `i` of a doubleword is its value shifted right by `8 * i`, modulo 256 (R31). -/
theorem toNat_byteOf (v : Word) (i : Nat) : (byteOf v i).toNat = (v.toNat >>> (8 * i)) % 256 :=
  BitVec.extractLsb'_toNat (8 * i) 8 v

namespace Machine

/-- Each of the four bytes of a stored doubleword reads back as that byte of the value (R31). -/
theorem Memory.byteAt_setDword_add (m : Memory) (a : Nat) (v : Word) {i : Nat} (hi : i < 4) :
    (m.setDword a v).byteAt (a + i) = byteOf v i := by
  have hin : a ≤ a + i ∧ a + i < a + 4 := by omega
  rw [Memory.byteAt_setDword, if_pos hin, Nat.add_sub_cancel_left]

/-- Settles O11: a read composes the four bytes by `toNat_le32`, and a store lays down the bytes `toNat_byteOf` values. -/
theorem dwordsAreLittleEndian : Obligations.DwordsAreLittleEndian := by
  refine ⟨fun m a => ?read, fun m a v i hi => ?store⟩
  case read => exact toNat_le32 _ _ _ _
  case store => rw [Memory.byteAt_setDword_add m a v hi, toNat_byteOf]

end Machine
end Sys2Proof
end

section
/-! The decoder by its first bytes (R53, R60 to R62): an equation for each branch that gives an unimplemented encoding
or the `mov r32, imm32` family, and that no other branch gives an unimplemented shape or that family. -/

namespace Sys2Proof

/-- A bind completes exactly when both of its computations do. -/
theorem except_bind_eq_ok {ε α β : Type} {x : Except ε α} {f : α → Except ε β} {b : β} :
    (x >>= f) = .ok b ↔ ∃ a, x = .ok a ∧ f a = .ok b := by
  cases x <;> simp [bind, Except.bind]

/-- A bind fails with the first failure. -/
theorem except_bind_eq_error {ε α β : Type} {x : Except ε α} {f : α → Except ε β} {e : ε} :
    (x >>= f) = .error e ↔ x = .error e ∨ ∃ a, x = .ok a ∧ f a = .error e := by
  cases x <;> simp [bind, Except.bind]

/-- A byte fetch fails only where the bytes end. -/
theorem fetchByte_eq_error {bs : List Byte} {k : Nat} {e : DecodeError} (h : fetchByte bs k = .error e) :
    e = .outside k .byte := by
  unfold fetchByte at h
  cases hb : bs[k]? <;> simp_all

/-- A doubleword fetch fails only where the bytes end. -/
theorem fetchDword_eq_error {bs : List Byte} {k : Nat} {e : DecodeError} (h : fetchDword bs k = .error e) :
    e = .outside k .dword := by
  unfold fetchDword at h
  split at h <;> simp_all

/-! ### The ModRM byte -/

section
variable {bs : List Byte} {b : Byte}

/-- The SIB test precedes every displacement: nothing is asked of the bytes after the ModRM byte (R53). -/
theorem decodeModRM_sib (hb : bs[1]? = some b) (hmode : modeField b ≠ 3#2) (hrm : rmField b = 4#3) :
    decodeModRM bs = .error (.addressing (modeField b) (rmField b)) := by
  simp [decodeModRM, fetchByte_eq_ok.2 hb, hmode, hrm, bind, Except.bind]

/-- Mode 3 names a register, whatever `rm` is (R55). -/
theorem decodeModRM_register (hb : bs[1]? = some b) (hmode : modeField b = 3#2) :
    decodeModRM bs = .ok ⟨regField b, .reg (Reg.ofBits (rmField b))⟩ := by
  simp [decodeModRM, fetchByte_eq_ok.2 hb, hmode, bind, Except.bind, pure, Except.pure]

/-- Only the SIB test reports an unimplemented shape: the other branches fail in a fetch or not at all. -/
theorem decodeModRM_eq_addressing {mode : BitVec 2} {rm : BitVec 3} (hd : decodeModRM bs = .error (.addressing mode rm)) :
    ∃ b, bs[1]? = some b ∧ mode = modeField b ∧ rm = rmField b ∧ mode ≠ 3#2 ∧ rm = 4#3 := by
  have hbyte (k) : fetchByte bs k ≠ .error (.addressing mode rm) := fun h => nomatch fetchByte_eq_error h
  have hdword (k) : fetchDword bs k ≠ .error (.addressing mode rm) := fun h => nomatch fetchDword_eq_error h
  obtain h | ⟨b, hfetch, h⟩ := except_bind_eq_error.1 hd
  · exact absurd h (hbyte 1)
  have hb : bs[1]? = some b := fetchByte_eq_ok.1 hfetch
  by_cases hsib : modeField b ≠ 3#2 ∧ rmField b = 4#3
  · rw [decodeModRM_sib hb hsib.1 hsib.2] at hd
    cases hd
    exact ⟨b, hb, rfl, rfl, hsib⟩
  · simp only [if_neg hsib] at h
    split_ifs at h <;> simp [except_bind_eq_error, hbyte, hdword, pure, Except.pure] at h

end

/-! ### The opcode byte -/

/-- The family's opcodes as a range (R60). -/
theorem isMovR32Imm32_iff (op : Byte) : isMovR32Imm32 op = true ↔ 0xB8 ≤ op.toNat ∧ op.toNat ≤ 0xBF := by
  revert op; decide

/-- Within the family, the low three bits count from 0xB8 (R60). -/
theorem toNat_rmField_of_isMovR32Imm32 {op : Byte} : isMovR32Imm32 op = true → (rmField op).toNat = op.toNat - 0xB8 := by
  revert op; decide

/-- The family meets none of the opcodes the dispatcher tests before it. -/
theorem ne_of_isMovR32Imm32 {op : Byte} :
    isMovR32Imm32 op = true → op ≠ 0x01#8 ∧ op ≠ 0x83#8 ∧ op ≠ 0x89#8 ∧ op ≠ 0x8B#8 := by
  revert op; decide

section
variable {bs : List Byte} {op : Byte}

/-- In the family, the opcode's low three bits name the register, and the immediate is at byte 1 (R58). -/
theorem decode_movR32Imm32 (h0 : bs[0]? = some op) (h : isMovR32Imm32 op = true) :
    decode bs = (do return .movR32Imm32 (Reg.ofBits (rmField op)) (← fetchDword bs 1)) := by
  obtain ⟨h01, h83, h89, h8B⟩ := ne_of_isMovR32Imm32 h
  rw [decode, fetchByte_eq_ok.2 h0]
  exact (if_neg h01).trans <| (if_neg h83).trans <| (if_neg h89).trans <| (if_neg h8B).trans (if_pos h)

/-- No opcode outside the family decodes to `mov r32, imm32`. -/
theorem isMovR32Imm32_of_decode {r : Reg} {imm : Word} (h : decode bs = .ok (.movR32Imm32 r imm)) :
    ∃ op, bs[0]? = some op ∧ isMovR32Imm32 op = true := by
  obtain ⟨op, h0, h⟩ := except_bind_eq_ok.1 h
  refine ⟨op, fetchByte_eq_ok.1 h0, by_contra fun hop => ?_⟩
  -- Every other branch ends in another constructor or in an error; two of them test the extension first.
  split_ifs at h <;> simp [except_bind_eq_ok, pure, Except.pure] at h
  all_goals
    obtain ⟨d, _, h⟩ := h
    split_ifs at h
    simp [except_bind_eq_ok] at h

/-- Exactly which bytes decode to `mov r32, imm32`. -/
theorem decode_eq_ok_movR32Imm32 {r : Reg} {imm : Word} (h0 : bs[0]? = some op) :
    decode bs = .ok (.movR32Imm32 r imm) ↔
      isMovR32Imm32 op = true ∧ Reg.ofBits (rmField op) = r ∧ fetchDword bs 1 = .ok imm := by
  constructor
  · intro h
    obtain ⟨op', h0', hop⟩ := isMovR32Imm32_of_decode h
    obtain rfl : op = op' := Option.some.inj (h0.symm.trans h0')
    rw [decode_movR32Imm32 h0 hop] at h
    obtain ⟨v, hv, h⟩ := except_bind_eq_ok.1 h
    cases h
    exact ⟨hop, rfl, hv⟩
  · rintro ⟨hop, rfl, hv⟩
    rw [decode_movR32Imm32 h0 hop, hv]
    rfl

/-- An extension of 0x83 other than 5 fails before the immediate is fetched (R62). -/
theorem decode_0x83_extension {d : Descriptor} (h0 : bs[0]? = some 0x83#8) (hd : decodeModRM bs = .ok d)
    (hreg : d.reg ≠ 5#3) : decode bs = .error (.opcode 0x83#8 (some d.reg)) := by
  simp [decode, fetchByte_eq_ok.2 h0, hd, hreg, bind, Except.bind]

/-- An extension of 0xFF other than 0 fails (R62). -/
theorem decode_0xFF_extension {d : Descriptor} (h0 : bs[0]? = some 0xFF#8) (hd : decodeModRM bs = .ok d)
    (hreg : d.reg ≠ 0#3) : decode bs = .error (.opcode 0xFF#8 (some d.reg)) := by
  simp [decode, fetchByte_eq_ok.2 h0, hd, hreg, isMovR32Imm32, bind, Except.bind]

end

namespace Machine

/-- The sixteen implemented opcodes, as the dispatcher tests them. -/
theorem mem_implementedOpcodes_iff (op : Byte) : op ∈ implementedOpcodes ↔ op = 0x01#8 ∨ op = 0x83#8 ∨ op = 0x89#8 ∨
    op = 0x8B#8 ∨ isMovR32Imm32 op = true ∨ op = 0xC7#8 ∨ op = 0xE9#8 ∨ op = 0xEB#8 ∨ op = 0xFF#8 := by
  revert op; decide

/-- Any other opcode byte fails by itself: nothing is asked of the bytes after it (R61). -/
theorem decode_unimplemented {bs : List Byte} {op : Byte} (h0 : bs[0]? = some op) (hop : op ∉ implementedOpcodes) :
    decode bs = .error (.opcode op none) := by
  simp only [mem_implementedOpcodes_iff, not_or] at hop
  simp [decode, fetchByte_eq_ok.2 h0, hop, bind, Except.bind]

/-- A step whose bytes do not decode is the fault the decoder's error stands for. -/
theorem step_of_decode_error {s : State} {e : DecodeError} (h : decode (instrBytes s) = .error e) :
    step s = .fault (decodeFault s.pc e) := by
  simp only [step, fetchDecode, h, raise]

/-! ### The obligations -/

/-- Settles O5: the SIB test is the one source of the error (`decodeModRM_sib`, `decodeModRM_eq_addressing`), the bytes
that meet it are counted out, and mode 3 is a register operand. -/
theorem sibShapesFault : Obligations.SibShapesFault := by
  refine ⟨fun bs mode rm => ⟨decodeModRM_eq_addressing, ?sib⟩, ?bytes, ?esp⟩
  case sib =>
    rintro ⟨b, hb, rfl, rfl, hmode, hrm⟩
    exact decodeModRM_sib hb hmode hrm
  case bytes => decide
  case esp =>
    intro bs b hb hmode hrm
    rw [decodeModRM_register hb hmode, hrm]
    rfl

/-- Settles O6: the family's test is the range, and within it the register number is the distance from 0xB8. -/
theorem movImmFamilyIsExact : Obligations.MovImmFamilyIsExact := by
  refine ⟨fun op rest r imm => ?family, fun rest => ?next⟩
  case family =>
    have hreg (h : isMovR32Imm32 op = true) : Reg.ofBits (rmField op) = r ↔ r.bits.toNat = op.toNat - 0xB8 := by
      rw [← toNat_rmField_of_isMovR32Imm32 h, BitVec.toNat_inj]
      exact ⟨by rintro rfl; simp, fun h => by simp [← h]⟩
    calc decode (op :: rest) = .ok (.movR32Imm32 r imm)
      _ ↔ isMovR32Imm32 op = true ∧ Reg.ofBits (rmField op) = r ∧ fetchDword (op :: rest) 1 = .ok imm :=
        decode_eq_ok_movR32Imm32 rfl
      _ ↔ isMovR32Imm32 op = true ∧ r.bits.toNat = op.toNat - 0xB8 ∧ fetchDword (op :: rest) 1 = .ok imm :=
        and_congr_right fun h => and_congr_left' (hreg h)
      _ ↔ _ := by rw [isMovR32Imm32_iff, and_assoc]
  case next => exact decode_unimplemented rfl (by decide)

/-- Settles O7: the ranges are counted out, and `decode_unimplemented` gives the fault, also where memory ends after the
opcode byte. -/
theorem unimplementedOpcodes : Obligations.UnimplementedOpcodes := by
  refine ⟨by decide, fun op rest => decode_unimplemented rfl, fun s hpc hop => ?step⟩
  case step =>
    have h0 : (instrBytes s)[0]? = some (s.mem.byteAt s.pc.toNat) := by
      rw [getElem?_instrBytes s (by decide)]
      exact if_pos hpc
    exact step_of_decode_error (decode_unimplemented h0 hop)

/-- Settles O8: both group opcodes fail on the extension as soon as the ModRM bytes have been decoded. -/
theorem unimplementedExtensions : Obligations.UnimplementedExtensions :=
  fun _ _ hd => ⟨fun h0 hreg => step_of_decode_error (decode_0x83_extension h0 hd hreg),
    fun h0 hreg => step_of_decode_error (decode_0xFF_extension h0 hd hreg)⟩

end Machine
end Sys2Proof
end

section
/-! The arithmetic instructions (R104): each is one read-modify-write of its operand, and that keeps FLAGS. -/

namespace Sys2Proof.Machine

/-- A completed read-modify-write keeps FLAGS: it wrote the operand and moved `pc`, neither of which holds a flag. -/
theorem updateRM32_flags {s t : State} {d : RM32} {f : Word → Word} {len : Nat} (h : updateRM32 s d f len = .next t) :
    t.flags = s.flags := by
  obtain ⟨_, rfl⟩ := updateRM32_eq_next.1 h
  rw [State.advance_flags, writtenRM32_flags]

/-- Settles O36: the three meanings are `updateRM32` at three functions, and it keeps FLAGS at every function. -/
theorem arithmeticLeavesFlags : Obligations.ArithmeticLeavesFlags := by
  intro s t d r imm
  refine ⟨?add, ?sub, ?inc⟩
  case add => exact updateRM32_flags (f := fun a => a + s.reg r)
  case sub => exact updateRM32_flags (f := fun a => a - sext8 imm)
  case inc => exact updateRM32_flags (f := fun a => a + 1#32)

end Sys2Proof.Machine
end

section
/-! The decoder's failures, listed once in the dispatcher's order (R133), and exactly which bytes give each of the two
unimplemented ones (R132, R135). -/

namespace Sys2Proof.Machine

/-- How the decoder can fail on bytes whose opcode byte is `op`. -/
inductive DecodeFailure (bs : List Byte) (op : Byte) : DecodeError → Prop
  /-- The bytes end inside an access (R36). -/
  | outside (k : Nat) (n : Width) : DecodeFailure bs op (.outside k n)
  /-- The ModRM bytes of an opcode that has them fail (R57). -/
  | modrm {e : DecodeError} (hop : op ∈ modrmOpcodes) (hd : decodeModRM bs = .error e) : DecodeFailure bs op e
  /-- No such opcode (R61). -/
  | opcode (hop : op ∉ implementedOpcodes) : DecodeFailure bs op (.opcode op none)
  /-- No such extension of a group opcode (R62). -/
  | extension {d : Descriptor} (hd : decodeModRM bs = .ok d)
      (hext : op = 0x83#8 ∧ d.reg ≠ 5#3 ∨ op = 0xFF#8 ∧ d.reg ≠ 0#3) : DecodeFailure bs op (.opcode op (some d.reg))

section
variable {bs : List Byte} {op : Byte} {e : DecodeError}

/-- A branch that ends in a byte immediate fails in that fetch or not at all. -/
theorem DecodeFailure.of_imm8 {k : Nat} {f : Byte → Instr} (h : (do return f (← fetchByte bs k)) = .error e) :
    DecodeFailure bs op e := by
  obtain h | ⟨_, _, ⟨⟩⟩ := except_bind_eq_error.1 h
  exact fetchByte_eq_error h ▸ .outside k .byte

/-- A branch that ends in a doubleword immediate fails in that fetch or not at all. -/
theorem DecodeFailure.of_imm32 {k : Nat} {f : Word → Instr} (h : (do return f (← fetchDword bs k)) = .error e) :
    DecodeFailure bs op e := by
  obtain h | ⟨_, _, ⟨⟩⟩ := except_bind_eq_error.1 h
  exact fetchDword_eq_error h ▸ .outside k .dword

/-- A branch that begins with the ModRM bytes fails in them or in what follows. -/
theorem DecodeFailure.of_modrm {f : Descriptor → Except DecodeError Instr} (hop : op ∈ modrmOpcodes)
    (h : (decodeModRM bs >>= f) = .error e)
    (hf : ∀ d, decodeModRM bs = .ok d → f d = .error e → DecodeFailure bs op e) : DecodeFailure bs op e := by
  obtain hd | ⟨d, hd, h⟩ := except_bind_eq_error.1 h
  · exact .modrm hop hd
  · exact hf d hd h

/-- The list is complete: one case per branch of the dispatcher. -/
theorem decodeFailure_of_decode (h0 : bs[0]? = some op) (h : decode bs = .error e) : DecodeFailure bs op e := by
  rw [decode, fetchByte_eq_ok.2 h0] at h
  obtain ⟨_, ⟨⟩, h⟩ := (except_bind_eq_error.1 h).resolve_left nofun
  split_ifs at h with h01 h83 h89 h8B hfam hC7 hE9 hEB hFF
  · exact .of_modrm (h01 ▸ by decide) h fun _ _ => nofun
  · refine .of_modrm (h83 ▸ by decide) h fun d hd h => ?_
    split_ifs at h with hreg
    · exact .of_imm8 h
    · cases h
      exact .extension hd (.inl ⟨h83, hreg⟩)
  · exact .of_modrm (h89 ▸ by decide) h fun _ _ => nofun
  · exact .of_modrm (h8B ▸ by decide) h fun _ _ => nofun
  · exact .of_imm32 h
  · exact .of_modrm (hC7 ▸ by decide) h fun _ _ => .of_imm32
  · exact .of_imm32 h
  · exact .of_imm8 h
  · refine .of_modrm (hFF ▸ by decide) h fun d hd h => ?_
    split_ifs at h with hreg
    · cases h
    · cases h
      exact .extension hd (.inr ⟨hFF, hreg⟩)
  · cases h
    refine .opcode ?_
    rw [mem_implementedOpcodes_iff]
    simp only [not_or]
    exact ⟨h01, h83, h89, h8B, hfam, hC7, hE9, hEB, hFF⟩

/-- For an opcode with a ModRM byte, a failure in the ModRM bytes is the decoder's answer: whatever follows them. -/
theorem decode_of_decodeModRM_error (h0 : bs[0]? = some op) (hop : op ∈ modrmOpcodes) (hd : decodeModRM bs = .error e) :
    decode bs = .error e := by
  simp only [modrmOpcodes, List.mem_cons, List.not_mem_nil, or_false] at hop
  rcases hop with rfl | rfl | rfl | rfl | rfl | rfl <;>
    simp [decode, fetchByte_eq_ok.2 h0, hd, isMovR32Imm32, bind, Except.bind]

/-- The ModRM bytes alone never fail as an unimplemented opcode: the extension is tested after them (R62). -/
theorem decodeModRM_ne_opcode (ext : Option (BitVec 3)) : decodeModRM bs ≠ .error (.opcode op ext) := by
  have hbyte (k) : fetchByte bs k ≠ .error (.opcode op ext) := fun h => nomatch fetchByte_eq_error h
  have hdword (k) : fetchDword bs k ≠ .error (.opcode op ext) := fun h => nomatch fetchDword_eq_error h
  intro h
  obtain ⟨b, _, h⟩ := (except_bind_eq_error.1 h).resolve_left (hbyte 1)
  dsimp only at h
  split_ifs at h <;> simp [except_bind_eq_error, hbyte, hdword, pure, Except.pure] at h

/-- Without an opcode byte the decoder's failure is that fetch's, so any other failure has one. -/
theorem exists_opcode_byte_of_decode (h : decode bs = .error e) (he : e ≠ .outside 0 .byte) : ∃ op, bs[0]? = some op := by
  obtain h0 | ⟨op, h0, _⟩ := except_bind_eq_error.1 h
  · exact absurd (fetchByte_eq_error h0) he
  · exact ⟨op, fetchByte_eq_ok.1 h0⟩

/-- Exactly which bytes fail as an unimplemented shape (R53, R132). -/
theorem decode_eq_addressing {mode : BitVec 2} {rm : BitVec 3} :
    decode bs = .error (.addressing mode rm) ↔
      ∃ op, bs[0]? = some op ∧ op ∈ modrmOpcodes ∧ decodeModRM bs = .error (.addressing mode rm) := by
  constructor
  · intro h
    obtain ⟨op, h0⟩ := exists_opcode_byte_of_decode h nofun
    cases decodeFailure_of_decode h0 h with
    | modrm hop hd => exact ⟨op, h0, hop, hd⟩
  · rintro ⟨op, h0, hop, hd⟩
    exact decode_of_decodeModRM_error h0 hop hd

/-- Exactly which bytes fail as an unimplemented opcode (R61, R62, R135). -/
theorem decode_eq_opcode {ext : Option (BitVec 3)} :
    decode bs = .error (.opcode op ext) ↔ bs[0]? = some op ∧
      ((op ∉ implementedOpcodes ∧ ext = none) ∨
        (∃ d, decodeModRM bs = .ok d ∧ ext = some d.reg ∧
          (op = 0x83#8 ∧ d.reg ≠ 5#3 ∨ op = 0xFF#8 ∧ d.reg ≠ 0#3))) := by
  constructor
  · intro h
    obtain ⟨op', h0⟩ := exists_opcode_byte_of_decode h nofun
    cases decodeFailure_of_decode h0 h with
    | modrm _ hd => exact absurd hd (decodeModRM_ne_opcode ext)
    | opcode hop => exact ⟨h0, .inl ⟨hop, rfl⟩⟩
    | extension hd hext => exact ⟨h0, .inr ⟨_, hd, rfl, hext⟩⟩
  · rintro ⟨h0, ⟨hop, rfl⟩ | ⟨d, hd, rfl, ⟨rfl, hreg⟩ | ⟨rfl, hreg⟩⟩⟩
    · exact decode_unimplemented h0 hop
    · exact decode_0x83_extension h0 hd hreg
    · exact decode_0xFF_extension h0 hd hreg

end

end Sys2Proof.Machine
end

section
/-! Where a step's faults come from (R130): executing an instruction raises bounds faults only, so the two
unimplemented faults are the decoder's. -/

namespace Sys2Proof.Machine

section
variable {s : State} {f : Fault}

/-- What `finish` makes a fault of. -/
theorem finish_eq_fault {x : Except Fault State} : finish x = .fault f ↔ x = .error f := by
  cases x <;> simp

/-- An operand read faults only on its bounds (R85). -/
theorem bounds_of_readRM32_error {d : RM32} (h : readRM32 s d = .error f) : ∃ k a n, f = .bounds k a n := by
  cases d with
  | reg r => cases h
  | mem m =>
    rw [readRM32, readDword_eq] at h
    split_ifs at h
    cases h
    exact ⟨_, _, _, rfl⟩

/-- An operand write faults only on its bounds (R86). -/
theorem bounds_of_writeRM32_error {d : RM32} {v : Word} (h : writeRM32 s d v = .error f) :
    ∃ k a n, f = .bounds k a n := by
  cases d with
  | reg r => cases h
  | mem m =>
    obtain h | ⟨_, _, ⟨⟩⟩ := except_bind_eq_error.1 h
    rw [writeDword_eq] at h
    split_ifs at h
    cases h
    exact ⟨_, _, _, rfl⟩

/-- A read-modify-write faults in its read or in its write. -/
theorem bounds_of_updateRM32_fault {d : RM32} {g : Word → Word} {len : Nat} (h : updateRM32 s d g len = .fault f) :
    ∃ k a n, f = .bounds k a n := by
  obtain h | ⟨_, _, h⟩ := except_bind_eq_error.1 (finish_eq_fault.1 h)
  · exact bounds_of_readRM32_error h
  obtain h | ⟨_, _, ⟨⟩⟩ := except_bind_eq_error.1 h
  exact bounds_of_writeRM32_error h

/-- A store faults in its write. -/
theorem bounds_of_storeRM32_fault {d : RM32} {v : Word} {len : Nat} (h : storeRM32 s d v len = .fault f) :
    ∃ k a n, f = .bounds k a n := by
  obtain h | ⟨_, _, ⟨⟩⟩ := except_bind_eq_error.1 (finish_eq_fault.1 h)
  exact bounds_of_writeRM32_error h

/-- A load faults in its read. -/
theorem bounds_of_execMovLoad_fault {r : Reg} {d : RM32} (h : execMovLoad r d s = .fault f) : ∃ k a n, f = .bounds k a n := by
  obtain h | ⟨_, _, ⟨⟩⟩ := except_bind_eq_error.1 (finish_eq_fault.1 h)
  exact bounds_of_readRM32_error h

/-- Executing an instruction raises bounds faults only: an unimplemented encoding never gets that far (R133). -/
theorem bounds_of_exec_fault {i : Instr} (h : exec i s = .fault f) : ∃ k a n, f = .bounds k a n := by
  cases i with
  | addRm32R32 d r => exact bounds_of_updateRM32_fault h
  | subRm32Imm8 d imm => exact bounds_of_updateRM32_fault h
  | movRm32R32 d r => exact bounds_of_storeRM32_fault h
  | movR32Rm32 r d => exact bounds_of_execMovLoad_fault h
  | movR32Imm32 r imm => cases h
  | movRm32Imm32 d imm => exact bounds_of_storeRM32_fault h
  | jmpRel32 rel => cases h
  | jmpRel8 rel => cases h
  | incRm32 d => exact bounds_of_updateRM32_fault h

/-- A step's fault is the decoder's, or the decoded instruction's own. -/
theorem step_eq_fault : step s = .fault f ↔
    (∃ e, decode (instrBytes s) = .error e ∧ decodeFault s.pc e = f) ∨
    ∃ i, decode (instrBytes s) = .ok i ∧ exec i s = .fault f := by
  cases hd : decode (instrBytes s) with
  | error e => simp [step_of_decode_error hd]
  | ok i => simp [step, fetchDecode_eq_ok.2 hd]

/-- A step's fault other than a bounds fault is the decoder's. -/
theorem step_eq_fault_of_not_bounds (hf : ∀ k a n, f ≠ .bounds k a n) :
    step s = .fault f ↔ ∃ e, decode (instrBytes s) = .error e ∧ decodeFault s.pc e = f := by
  rw [step_eq_fault, or_iff_left]
  rintro ⟨i, _, h⟩
  obtain ⟨k, a, n, h⟩ := bounds_of_exec_fault h
  exact hf k a n h

/-- Only the SIB test stands for an unimplemented shape. -/
theorem decodeFault_eq_unimplementedAddressing {pc : Word} {e : DecodeError} {mode : BitVec 2} {rm : BitVec 3} :
    decodeFault pc e = .unimplementedAddressing mode rm ↔ e = .addressing mode rm := by
  cases e <;> simp [decodeFault]

/-- Only the opcode and extension tests stand for an unimplemented opcode. -/
theorem decodeFault_eq_unimplementedOpcode {pc : Word} {e : DecodeError} {op : Byte} {ext : Option (BitVec 3)} :
    decodeFault pc e = .unimplementedOpcode op ext ↔ e = .opcode op ext := by
  cases e <;> simp [decodeFault]

theorem step_eq_unimplementedAddressing {mode : BitVec 2} {rm : BitVec 3} :
    step s = .fault (.unimplementedAddressing mode rm) ↔ decode (instrBytes s) = .error (.addressing mode rm) := by
  simp [step_eq_fault_of_not_bounds, decodeFault_eq_unimplementedAddressing]

theorem step_eq_unimplementedOpcode {op : Byte} {ext : Option (BitVec 3)} :
    step s = .fault (.unimplementedOpcode op ext) ↔ decode (instrBytes s) = .error (.opcode op ext) := by
  simp [step_eq_fault_of_not_bounds, decodeFault_eq_unimplementedOpcode]

/-- An instruction byte that is there is the byte of memory (R36). -/
theorem getElem?_instrBytes_eq_some {k : Nat} {b : Byte} (hk : k < maxInstrBytes) :
    (instrBytes s)[k]? = some b ↔ s.pc.toNat + k < s.mem.size ∧ b = s.mem.byteAt (s.pc.toNat + k) := by
  rw [getElem?_instrBytes s hk]
  split_ifs with h <;> simp [h, eq_comm]

end

/-! ### The obligations -/

/-- Settles O41: the fault is the decoder's, its one source is the SIB test of an opcode with a ModRM byte, and the two
bytes it looks at are those at `pc` and `pc + 1`. -/
theorem addressingFaultsExactly : Obligations.AddressingFaultsExactly := by
  intro s mode rm
  rw [step_eq_unimplementedAddressing, decode_eq_addressing]
  simp only [sibShapesFault.1, getElem?_instrBytes_eq_some (k := 0) (by decide),
    getElem?_instrBytes_eq_some (k := 1) (by decide), Nat.add_zero]
  constructor
  · rintro ⟨_, ⟨_, rfl⟩, hop, _, ⟨hsize, rfl⟩, hfields⟩
    exact ⟨hsize, hop, hfields⟩
  · rintro ⟨hsize, hop, hfields⟩
    exact ⟨_, ⟨by omega, rfl⟩, hop, _, ⟨hsize, rfl⟩, hfields⟩

/-- Settles O42: the fault is the decoder's, and `decode_eq_opcode` gives the rule's two cases over the byte at `pc`. -/
theorem opcodeFaultsExactly : Obligations.OpcodeFaultsExactly := by
  intro s op ext
  rw [step_eq_unimplementedOpcode, decode_eq_opcode, getElem?_instrBytes_eq_some (by decide), Nat.add_zero]

end Sys2Proof.Machine
end

section
/-! The decoder, a lemma per branch: what each opcode reads (R58), and what each (mode, rm) pair reads (R55). -/

namespace Sys2Proof

/-! ### The ModRM byte by mode -/

/-- The rows of R55's table: every (mode, rm) pair is in one of them. -/
theorem modrm_cases (mode : BitVec 2) (rm : BitVec 3) : (mode ≠ 3#2 ∧ rm = 4#3) ∨ (mode = 0#2 ∧ rm = 5#3) ∨
    (mode = 0#2 ∧ rm ≠ 4#3 ∧ rm ≠ 5#3) ∨ (mode = 1#2 ∧ rm ≠ 4#3) ∨ (mode = 2#2 ∧ rm ≠ 4#3) ∨ mode = 3#2 := by
  revert mode rm; decide

section
variable {bs : List Byte} {b : Byte}

/-- Mode 0 with rm 5 is the absolute form (R54). -/
theorem decodeModRM_absolute (hb : bs[1]? = some b) (hmode : modeField b = 0#2) (hrm : rmField b = 5#3) :
    decodeModRM bs = (do return ⟨regField b, .mem (.absolute (← fetchDword bs 2))⟩) := by
  simp [decodeModRM, fetchByte_eq_ok.2 hb, hmode, hrm, bind, Except.bind]

/-- Mode 0 with any other legal rm is a bare base: nothing follows the ModRM byte. -/
theorem decodeModRM_base (hb : bs[1]? = some b) (hmode : modeField b = 0#2) (h4 : rmField b ≠ 4#3)
    (h5 : rmField b ≠ 5#3) : decodeModRM bs = .ok ⟨regField b, .mem (.base (Reg.ofBits (rmField b)))⟩ := by
  simp [decodeModRM, fetchByte_eq_ok.2 hb, hmode, h4, h5, bind, Except.bind, pure, Except.pure]

/-- Mode 1 is a base and a byte of displacement. -/
theorem decodeModRM_disp8 (hb : bs[1]? = some b) (hmode : modeField b = 1#2) (h4 : rmField b ≠ 4#3) :
    decodeModRM bs = (do return ⟨regField b, .mem (.baseDisp8 (Reg.ofBits (rmField b)) (← fetchByte bs 2))⟩) := by
  simp [decodeModRM, fetchByte_eq_ok.2 hb, hmode, h4, bind, Except.bind]

/-- Mode 2 is a base and a doubleword of displacement. -/
theorem decodeModRM_disp32 (hb : bs[1]? = some b) (hmode : modeField b = 2#2) (h4 : rmField b ≠ 4#3) :
    decodeModRM bs = (do return ⟨regField b, .mem (.baseDisp32 (Reg.ofBits (rmField b)) (← fetchDword bs 2))⟩) := by
  simp [decodeModRM, fetchByte_eq_ok.2 hb, hmode, h4, bind, Except.bind]

end

/-! ### The opcode byte -/

section
variable {bs : List Byte}

theorem decode_0x01 (h0 : bs[0]? = some 0x01#8) :
    decode bs = (do let d ← decodeModRM bs; return .addRm32R32 d.rm (Reg.ofBits d.reg)) := by
  rw [decode, fetchByte_eq_ok.2 h0]; rfl

theorem decode_0x83 (h0 : bs[0]? = some 0x83#8) :
    decode bs = (do
      let d ← decodeModRM bs
      if d.reg = 5#3 then return .subRm32Imm8 d.rm (← fetchByte bs (1 + d.rm.modrmLength))
      else .error (.opcode 0x83#8 (some d.reg))) := by
  rw [decode, fetchByte_eq_ok.2 h0]; rfl

theorem decode_0x89 (h0 : bs[0]? = some 0x89#8) :
    decode bs = (do let d ← decodeModRM bs; return .movRm32R32 d.rm (Reg.ofBits d.reg)) := by
  rw [decode, fetchByte_eq_ok.2 h0]; rfl

theorem decode_0x8B (h0 : bs[0]? = some 0x8B#8) :
    decode bs = (do let d ← decodeModRM bs; return .movR32Rm32 (Reg.ofBits d.reg) d.rm) := by
  rw [decode, fetchByte_eq_ok.2 h0]; rfl

theorem decode_0xC7 (h0 : bs[0]? = some 0xC7#8) :
    decode bs = (do
      let d ← decodeModRM bs
      return .movRm32Imm32 d.rm (← fetchDword bs (1 + d.rm.modrmLength))) := by
  rw [decode, fetchByte_eq_ok.2 h0]; rfl

theorem decode_0xE9 (h0 : bs[0]? = some 0xE9#8) : decode bs = (do return .jmpRel32 (← fetchDword bs 1)) := by
  rw [decode, fetchByte_eq_ok.2 h0]; rfl

theorem decode_0xEB (h0 : bs[0]? = some 0xEB#8) : decode bs = (do return .jmpRel8 (← fetchByte bs 1)) := by
  rw [decode, fetchByte_eq_ok.2 h0]; rfl

theorem decode_0xFF (h0 : bs[0]? = some 0xFF#8) :
    decode bs = (do
      let d ← decodeModRM bs
      if d.reg = 0#3 then return .incRm32 d.rm else .error (.opcode 0xFF#8 (some d.reg))) := by
  rw [decode, fetchByte_eq_ok.2 h0]; rfl

end
end Sys2Proof
end

section
/-! Decoding inverts encoding (R51, R55, R58): a byte string decodes to an instruction exactly when the instruction is
well formed and its encoding begins the string. Both directions extend
the known beginning of the string, one fetch at a time. -/

namespace Sys2Proof

/-! ### Extending the beginning of a string by a fetch -/

section
variable {p bs : List Byte}

theorem getElem?_zero_of_cons_prefix {b : Byte} (h : b :: p <+: bs) : bs[0]? = some b := by
  obtain ⟨rest, rfl⟩ := h
  rfl

/-- One more byte of the beginning is the byte fetched after it. -/
theorem append_byte_prefix_iff {b : Byte} (hp : p <+: bs) : p ++ [b] <+: bs ↔ fetchByte bs p.length = .ok b := by
  obtain ⟨rest, rfl⟩ := hp
  rw [List.prefix_append_right_inj, fetchByte_eq_ok, List.getElem?_append_right le_rfl, Nat.sub_self]
  cases rest <;> simp [eq_comm]

/-- Four more bytes of the beginning are the doubleword fetched after it. -/
theorem append_leBytes_prefix_iff {v : Word} (hp : p <+: bs) :
    p ++ leBytes v <+: bs ↔ fetchDword bs p.length = .ok v := by
  obtain ⟨rest, rfl⟩ := hp
  rw [List.prefix_append_right_inj, fetchDword_eq_ok]
  simp only [List.getElem?_append_right, Nat.le_add_right, le_refl, Nat.add_sub_cancel_left, Nat.sub_self]
  constructor
  · rintro ⟨tail, rfl⟩
    exact ⟨_, _, _, _, rfl, rfl, rfl, rfl, (le32_leBytes v).symm⟩
  · rintro ⟨b0, b1, b2, b3, h0, h1, h2, h3, rfl⟩
    rw [leBytes_le32, List.prefix_iff_getElem?]
    intro k hk
    match k, hk with
    | 0, _ => exact h0
    | 1, _ => exact h1
    | 2, _ => exact h2
    | 3, _ => exact h3

end

/-! ### The ModRM bytes -/

theorem Reg.bits_eq_four_iff (r : Reg) : r.bits = 4#3 ↔ r = .esp := by cases r <;> decide

theorem Reg.bits_eq_five_iff (r : Reg) : r.bits = 5#3 ↔ r = .ebp := by cases r <;> decide

theorem Reg.ofBits_eq_esp_iff (b : BitVec 3) : Reg.ofBits b = .esp ↔ b = 4#3 := by revert b; decide

theorem Reg.ofBits_eq_ebp_iff (b : BitVec 3) : Reg.ofBits b = .ebp ↔ b = 5#3 := by revert b; decide

/-- The ModRM byte an operand begins with. -/
theorem modrmByte_of_fields {b : Byte} {mode : BitVec 2} {rm : BitVec 3} (hmode : modeField b = mode)
    (hrm : rmField b = rm) : modrmByte mode (regField b) rm = b := by
  rw [← hmode, ← hrm, modrmByte_fields]

section
variable {bs : List Byte} {op : Byte}

/-- Whatever the ModRM bytes decode to is well formed, and its encoding stands after the opcode byte (R55). -/
theorem encodeModRM_prefix_of_decodeModRM {d : Descriptor} (h0 : bs[0]? = some op) (h : decodeModRM bs = .ok d) :
    d.rm.wellFormed = true ∧ op :: encodeModRM d.reg d.rm <+: bs := by
  obtain ⟨b, hb, _⟩ := except_bind_eq_ok.1 h
  have hp : [op, b] <+: bs := (append_byte_prefix_iff ((append_byte_prefix_iff List.nil_prefix).2
    (fetchByte_eq_ok.2 h0))).2 hb
  have hb := fetchByte_eq_ok.1 hb
  obtain ⟨hmode, hrm⟩ | ⟨hmode, hrm⟩ | ⟨hmode, h4, h5⟩ | ⟨hmode, h4⟩ | ⟨hmode, h4⟩ | hmode :=
    modrm_cases (modeField b) (rmField b)
  · cases (decodeModRM_sib hb hmode hrm).symm.trans h
  · obtain ⟨disp, hdisp, hd⟩ := except_bind_eq_ok.1 ((decodeModRM_absolute hb hmode hrm).symm.trans h)
    cases hd
    refine ⟨rfl, ?_⟩
    simpa [encodeModRM, modrmByte_of_fields hmode hrm] using (append_leBytes_prefix_iff hp).2 hdisp
  · cases (decodeModRM_base hb hmode h4 h5).symm.trans h
    refine ⟨by simp [RM32.wellFormed, MemOperand.wellFormed, Reg.ofBits_eq_esp_iff, Reg.ofBits_eq_ebp_iff, h4, h5], ?_⟩
    simpa [encodeModRM, modrmByte_of_fields hmode rfl] using hp
  · obtain ⟨disp, hdisp, hd⟩ := except_bind_eq_ok.1 ((decodeModRM_disp8 hb hmode h4).symm.trans h)
    cases hd
    refine ⟨by simp [RM32.wellFormed, MemOperand.wellFormed, Reg.ofBits_eq_esp_iff, h4], ?_⟩
    simpa [encodeModRM, modrmByte_of_fields hmode rfl] using (append_byte_prefix_iff hp).2 hdisp
  · obtain ⟨disp, hdisp, hd⟩ := except_bind_eq_ok.1 ((decodeModRM_disp32 hb hmode h4).symm.trans h)
    cases hd
    refine ⟨by simp [RM32.wellFormed, MemOperand.wellFormed, Reg.ofBits_eq_esp_iff, h4], ?_⟩
    simpa [encodeModRM, modrmByte_of_fields hmode rfl] using (append_leBytes_prefix_iff hp).2 hdisp
  · cases (decodeModRM_register hb hmode).symm.trans h
    refine ⟨rfl, ?_⟩
    simpa [encodeModRM, modrmByte_of_fields hmode rfl] using hp

/-- The encoding of a well-formed operand decodes to it, whatever follows (R55). -/
theorem decodeModRM_of_encodeModRM_prefix {d : RM32} {reg : BitVec 3} (hwf : d.wellFormed = true)
    (h : op :: encodeModRM reg d <+: bs) : decodeModRM bs = .ok ⟨reg, d⟩ := by
  match d with
  | .reg r =>
    obtain ⟨rest, rfl⟩ := h
    rw [decodeModRM_register (b := modrmByte 3#2 reg r.bits) rfl (by simp)]
    simp
  | .mem (.base b) =>
    obtain ⟨rest, rfl⟩ := h
    have hb : b ≠ .esp ∧ b ≠ .ebp := by simpa [RM32.wellFormed, MemOperand.wellFormed] using hwf
    rw [decodeModRM_base (b := modrmByte 0#2 reg b.bits) rfl (by simp) (by simp [Reg.bits_eq_four_iff, hb])
      (by simp [Reg.bits_eq_five_iff, hb])]
    simp
  | .mem (.baseDisp8 b disp) =>
    have hp : [op, modrmByte 1#2 reg b.bits] <+: bs := (List.prefix_append _ [disp]).trans h
    have hdisp : fetchByte bs 2 = .ok disp := (append_byte_prefix_iff hp).1 h
    have hb : b ≠ .esp := by simpa [RM32.wellFormed, MemOperand.wellFormed] using hwf
    obtain ⟨rest, rfl⟩ := hp
    rw [decodeModRM_disp8 (b := modrmByte 1#2 reg b.bits) rfl (by simp) (by simp [Reg.bits_eq_four_iff, hb]), hdisp]
    simp [bind, Except.bind, pure, Except.pure]
  | .mem (.baseDisp32 b disp) =>
    have hp : [op, modrmByte 2#2 reg b.bits] <+: bs := (List.prefix_append _ (leBytes disp)).trans h
    have hdisp : fetchDword bs 2 = .ok disp := (append_leBytes_prefix_iff hp).1 h
    have hb : b ≠ .esp := by simpa [RM32.wellFormed, MemOperand.wellFormed] using hwf
    obtain ⟨rest, rfl⟩ := hp
    rw [decodeModRM_disp32 (b := modrmByte 2#2 reg b.bits) rfl (by simp) (by simp [Reg.bits_eq_four_iff, hb]), hdisp]
    simp [bind, Except.bind, pure, Except.pure]
  | .mem (.absolute disp) =>
    have hp : [op, modrmByte 0#2 reg 5#3] <+: bs := (List.prefix_append _ (leBytes disp)).trans h
    have hdisp : fetchDword bs 2 = .ok disp := (append_leBytes_prefix_iff hp).1 h
    obtain ⟨rest, rfl⟩ := hp
    rw [decodeModRM_absolute (b := modrmByte 0#2 reg 5#3) rfl (by simp) (by simp), hdisp]
    simp [bind, Except.bind, pure, Except.pure]

end

/-! ### The instruction -/

@[simp] theorem length_encodeWith (spare : BitVec 3) (i : Instr) : (i.encodeWith spare).length = i.length := by
  cases i <;> simp [Instr.encodeWith, Instr.length] <;> omega

theorem isMovR32Imm32_movImmOpcode (r : Reg) : isMovR32Imm32 (movImmOpcode r) = true := by cases r <;> rfl

theorem rmField_movImmOpcode (r : Reg) : rmField (movImmOpcode r) = r.bits := by cases r <;> rfl

/-- Within the family, the register number determines the opcode byte (R60). -/
theorem movImmOpcode_ofBits_rmField {op : Byte} :
    isMovR32Imm32 op = true → movImmOpcode (Reg.ofBits (rmField op)) = op := by
  revert op; decide

section
variable {bs : List Byte}

/-- The bytes of a well-formed instruction decode to it, whatever follows them. -/
theorem decode_of_encodeWith_prefix {i : Instr} {spare : BitVec 3} (hwf : i.wellFormed = true)
    (h : i.encodeWith spare <+: bs) : decode bs = .ok i := by
  cases i with
  | addRm32R32 d r =>
    rw [decode_0x01 (getElem?_zero_of_cons_prefix h), decodeModRM_of_encodeModRM_prefix hwf h]
    simp [bind, Except.bind, pure, Except.pure]
  | subRm32Imm8 d imm =>
    have hp : 0x83#8 :: encodeModRM 5#3 d <+: bs := (List.prefix_append _ [imm]).trans h
    have himm := (append_byte_prefix_iff hp).1 h
    rw [List.length_cons, length_encodeModRM, Nat.add_comm] at himm
    rw [decode_0x83 (getElem?_zero_of_cons_prefix h), decodeModRM_of_encodeModRM_prefix hwf hp]
    simp [bind, Except.bind, pure, Except.pure, himm]
  | movRm32R32 d r =>
    rw [decode_0x89 (getElem?_zero_of_cons_prefix h), decodeModRM_of_encodeModRM_prefix hwf h]
    simp [bind, Except.bind, pure, Except.pure]
  | movR32Rm32 r d =>
    rw [decode_0x8B (getElem?_zero_of_cons_prefix h), decodeModRM_of_encodeModRM_prefix hwf h]
    simp [bind, Except.bind, pure, Except.pure]
  | movR32Imm32 r imm =>
    rw [decode_eq_ok_movR32Imm32 (getElem?_zero_of_cons_prefix h)]
    have hp : [movImmOpcode r] <+: bs := (List.prefix_append _ (leBytes imm)).trans h
    exact ⟨isMovR32Imm32_movImmOpcode r, by simp [rmField_movImmOpcode], (append_leBytes_prefix_iff hp).1 h⟩
  | movRm32Imm32 d imm =>
    have hp : 0xC7#8 :: encodeModRM spare d <+: bs := (List.prefix_append _ (leBytes imm)).trans h
    have himm := (append_leBytes_prefix_iff hp).1 h
    rw [List.length_cons, length_encodeModRM, Nat.add_comm] at himm
    rw [decode_0xC7 (getElem?_zero_of_cons_prefix h), decodeModRM_of_encodeModRM_prefix hwf hp]
    simp [bind, Except.bind, pure, Except.pure, himm]
  | jmpRel32 rel =>
    have hp : [0xE9#8] <+: bs := (List.prefix_append _ (leBytes rel)).trans h
    rw [decode_0xE9 (getElem?_zero_of_cons_prefix h), show fetchDword bs 1 = _ from (append_leBytes_prefix_iff hp).1 h]
    rfl
  | jmpRel8 rel =>
    have hp : [0xEB#8] <+: bs := (List.prefix_append _ [rel]).trans h
    rw [decode_0xEB (getElem?_zero_of_cons_prefix h), show fetchByte bs 1 = _ from (append_byte_prefix_iff hp).1 h]
    rfl
  | incRm32 d =>
    rw [decode_0xFF (getElem?_zero_of_cons_prefix h), decodeModRM_of_encodeModRM_prefix hwf h]
    rfl

/-- Whatever the decoder reads is well formed, and its encoding begins the bytes, for some value of the `reg` field
that 0xC7 ignores. One case per opcode. -/
theorem encodeWith_prefix_of_decode {i : Instr} (h : decode bs = .ok i) :
    i.wellFormed = true ∧ ∃ spare, i.encodeWith spare <+: bs := by
  obtain ⟨op, hfetch, _⟩ := except_bind_eq_ok.1 h
  have h0 : bs[0]? = some op := fetchByte_eq_ok.1 hfetch
  have hp : [op] <+: bs := (append_byte_prefix_iff List.nil_prefix).2 hfetch
  have hop : op ∈ Machine.implementedOpcodes := by
    by_contra hop
    cases (Machine.decode_unimplemented h0 hop).symm.trans h
  obtain rfl | rfl | rfl | rfl | hfam | rfl | rfl | rfl | rfl := (Machine.mem_implementedOpcodes_iff op).1 hop
  · obtain ⟨d, hd, hi⟩ := except_bind_eq_ok.1 ((decode_0x01 h0).symm.trans h)
    cases hi
    obtain ⟨hwf, hp⟩ := encodeModRM_prefix_of_decodeModRM h0 hd
    exact ⟨hwf, 0#3, by simpa [Instr.encodeWith] using hp⟩
  · obtain ⟨d, hd, hi⟩ := except_bind_eq_ok.1 ((decode_0x83 h0).symm.trans h)
    split_ifs at hi with hreg
    obtain ⟨imm, himm, hi⟩ := except_bind_eq_ok.1 hi
    cases hi
    obtain ⟨hwf, hp⟩ := encodeModRM_prefix_of_decodeModRM h0 hd
    rw [hreg] at hp
    exact ⟨hwf, 0#3, (append_byte_prefix_iff hp).2 (by simpa [Nat.add_comm] using himm)⟩
  · obtain ⟨d, hd, hi⟩ := except_bind_eq_ok.1 ((decode_0x89 h0).symm.trans h)
    cases hi
    obtain ⟨hwf, hp⟩ := encodeModRM_prefix_of_decodeModRM h0 hd
    exact ⟨hwf, 0#3, by simpa [Instr.encodeWith] using hp⟩
  · obtain ⟨d, hd, hi⟩ := except_bind_eq_ok.1 ((decode_0x8B h0).symm.trans h)
    cases hi
    obtain ⟨hwf, hp⟩ := encodeModRM_prefix_of_decodeModRM h0 hd
    exact ⟨hwf, 0#3, by simpa [Instr.encodeWith] using hp⟩
  · obtain ⟨imm, himm, hi⟩ := except_bind_eq_ok.1 ((decode_movR32Imm32 h0 hfam).symm.trans h)
    cases hi
    refine ⟨rfl, 0#3, ?_⟩
    simpa [Instr.encodeWith, movImmOpcode_ofBits_rmField hfam] using (append_leBytes_prefix_iff hp).2 himm
  · obtain ⟨d, hd, hi⟩ := except_bind_eq_ok.1 ((decode_0xC7 h0).symm.trans h)
    obtain ⟨imm, himm, hi⟩ := except_bind_eq_ok.1 hi
    cases hi
    obtain ⟨hwf, hp⟩ := encodeModRM_prefix_of_decodeModRM h0 hd
    exact ⟨hwf, d.reg, (append_leBytes_prefix_iff hp).2 (by simpa [Nat.add_comm] using himm)⟩
  · obtain ⟨rel, hrel, hi⟩ := except_bind_eq_ok.1 ((decode_0xE9 h0).symm.trans h)
    cases hi
    exact ⟨rfl, 0#3, (append_leBytes_prefix_iff hp).2 hrel⟩
  · obtain ⟨rel, hrel, hi⟩ := except_bind_eq_ok.1 ((decode_0xEB h0).symm.trans h)
    cases hi
    exact ⟨rfl, 0#3, (append_byte_prefix_iff hp).2 hrel⟩
  · obtain ⟨d, hd, hi⟩ := except_bind_eq_ok.1 ((decode_0xFF h0).symm.trans h)
    split_ifs at hi with hreg
    cases hi
    obtain ⟨hwf, hp⟩ := encodeModRM_prefix_of_decodeModRM h0 hd
    rw [hreg] at hp
    exact ⟨hwf, 0#3, hp⟩

end

/-- Settles O1: whatever is appended to the encoding, it begins with the encoding. -/
theorem decodeInvertsEncode : Obligations.DecodeInvertsEncode :=
  fun _ _ _ hwf => decode_of_encodeWith_prefix hwf (List.prefix_append _ _)

/-- Settles O2: the encoding that begins the bytes is `i.length` of them, which `take` gives. -/
theorem encodeCoversDecode : Obligations.EncodeCoversDecode := by
  intro bs i h
  obtain ⟨hwf, spare, hp⟩ := encodeWith_prefix_of_decode h
  refine ⟨hwf, spare, ?_⟩
  rw [← length_encodeWith spare i]
  exact (List.prefix_iff_eq_take.1 hp).symm

end Sys2Proof
end

section
/-! The tables of the encoding (R55, R63, R67) and the spec's example words. -/

namespace Sys2Proof

/-! ### The ModRM table -/

theorem toNat_modeField (b : Byte) : (modeField b).toNat = (b.toNat >>> 6) &&& 0b11 := by
  revert b; decide

theorem toNat_regField (b : Byte) : (regField b).toNat = (b.toNat >>> 3) &&& 0b111 := by
  revert b; decide

theorem toNat_rmField (b : Byte) : (rmField b).toNat = b.toNat &&& 0b111 := by
  revert b; decide

/-- Settles O4: one branch lemma of `decodeModRM` per row. -/
theorem modRMTable : Obligations.ModRMTable := by
  intro op b rest mode reg rm hmode hreg hrm
  obtain rfl : mode = modeField b := BitVec.eq_of_toNat_eq (hmode.trans (toNat_modeField b).symm)
  obtain rfl : reg = regField b := BitVec.eq_of_toNat_eq (hreg.trans (toNat_regField b).symm)
  obtain rfl : rm = rmField b := BitVec.eq_of_toNat_eq (hrm.trans (toNat_rmField b).symm)
  refine ⟨fun hmode h4 => ?sib, fun hmode h4 h5 => ?base, fun hmode h5 => ?absolute, fun hmode h4 => ?disp8,
    fun hmode h4 => ?disp32, fun hmode => ?register⟩
  case sib => rw [decodeModRM_sib rfl hmode h4, h4]
  case base => exact ⟨_, decodeModRM_base rfl hmode h4 h5, rfl, rfl, rfl⟩
  case absolute =>
    rintro d0 d1 d2 d3 tail rfl
    exact ⟨_, decodeModRM_absolute rfl hmode h5, rfl, rfl, rfl⟩
  case disp8 =>
    rintro d0 tail rfl
    exact ⟨_, decodeModRM_disp8 rfl hmode h4, rfl, rfl, rfl⟩
  case disp32 =>
    rintro d0 d1 d2 d3 tail rfl
    exact ⟨_, decodeModRM_disp32 rfl hmode h4, rfl, rfl, rfl⟩
  case register => exact ⟨_, decodeModRM_register rfl hmode, rfl, rfl, rfl⟩

/-! ### The reg field of 0xC7 -/

/-- The operand, unlike the `reg` field beside it, depends on the mode and rm of the ModRM byte alone. -/
theorem decodeModRM_rm_congr {op b c : Byte} {rest : List Byte} (hmode : modeField b = modeField c)
    (hrm : rmField b = rmField c) :
    (decodeModRM (op :: b :: rest)).map Descriptor.rm = (decodeModRM (op :: c :: rest)).map Descriptor.rm := by
  have hb : (op :: b :: rest)[1]? = some b := rfl
  have hc : (op :: c :: rest)[1]? = some c := rfl
  have hbyte : fetchByte (op :: b :: rest) 2 = fetchByte (op :: c :: rest) 2 := rfl
  have hdword : fetchDword (op :: b :: rest) 2 = fetchDword (op :: c :: rest) 2 := rfl
  obtain ⟨hm, h4⟩ | ⟨hm, h5⟩ | ⟨hm, h4, h5⟩ | ⟨hm, h4⟩ | ⟨hm, h4⟩ | hm := modrm_cases (modeField c) (rmField c)
  · rw [decodeModRM_sib hc hm h4, decodeModRM_sib hb (hmode ▸ hm) (hrm.trans h4), hmode, hrm]
  · rw [decodeModRM_absolute hc hm h5, decodeModRM_absolute hb (hmode.trans hm) (hrm.trans h5), hdword]
    cases fetchDword (op :: c :: rest) 2 <;> rfl
  · rw [decodeModRM_base hc hm h4 h5, decodeModRM_base hb (hmode.trans hm) (hrm ▸ h4) (hrm ▸ h5), hrm]
    rfl
  · rw [decodeModRM_disp8 hc hm h4, decodeModRM_disp8 hb (hmode.trans hm) (hrm ▸ h4), hbyte, hrm]
    cases fetchByte (op :: c :: rest) 2 <;> rfl
  · rw [decodeModRM_disp32 hc hm h4, decodeModRM_disp32 hb (hmode.trans hm) (hrm ▸ h4), hdword, hrm]
    cases fetchDword (op :: c :: rest) 2 <;> rfl
  · rw [decodeModRM_register hc hm, decodeModRM_register hb (hmode.trans hm), hrm]
    rfl

/-- 0xC7 goes on from the operand alone. -/
theorem decode_0xC7_eq_bind_rm {bs : List Byte} (h0 : bs[0]? = some 0xC7#8) :
    decode bs = (do
      let d ← (decodeModRM bs).map Descriptor.rm
      return .movRm32Imm32 d (← fetchDword bs (1 + d.modrmLength))) := by
  rw [decode_0xC7 h0]
  cases decodeModRM bs <;> rfl

/-- Settles O9: 0xC7 goes on from the operand alone, and the immediate stands after the ModRM byte. -/
theorem movImmIgnoresReg : Obligations.MovImmIgnoresReg := by
  intro b c rest hmode hrm
  have himm (d : RM32) : fetchDword (0xC7#8 :: b :: rest) (1 + d.modrmLength) =
      fetchDword (0xC7#8 :: c :: rest) (1 + d.modrmLength) := by
    obtain h | h | h := d.modrmLength_cases <;> rw [h] <;> rfl
  rw [decode_0xC7_eq_bind_rm rfl, decode_0xC7_eq_bind_rm rfl, decodeModRM_rm_congr hmode hrm]
  simp only [himm]

/-! ### The opcode table -/

/-- The nine rows of spec/opcode_table.json. -/
def opcodeRows : List OpcodeRow :=
  [⟨0x0100#16, 0xFF00#16⟩, ⟨0x8328#16, 0xFF38#16⟩, ⟨0x8900#16, 0xFF00#16⟩, ⟨0x8B00#16, 0xFF00#16⟩,
   ⟨0xB800#16, 0xF800#16⟩, ⟨0xC700#16, 0xFF00#16⟩, ⟨0xE900#16, 0xFF00#16⟩, ⟨0xEB00#16, 0xFF00#16⟩,
   ⟨0xFF00#16, 0xFF38#16⟩]

theorem row_mem_opcodeRows (i : Instr) : i.row ∈ opcodeRows := by
  cases i <;> simp [Instr.row, opcodeRows]

/-- Two rows that select one word agree on the bits that both of them fix. -/
theorem OpcodeRow.agree_of_selects {a b : OpcodeRow} {w : BitVec 16} (ha : a.selects w = true)
    (hb : b.selects w = true) : a.pattern &&& b.mask = b.pattern &&& a.mask := by
  have ha : w &&& a.mask = a.pattern := by simpa [OpcodeRow.selects] using ha
  have hb : w &&& b.mask = b.pattern := by simpa [OpcodeRow.selects] using hb
  rw [← ha, ← hb, BitVec.and_assoc, BitVec.and_assoc, BitVec.and_comm a.mask]

/-- Any two rows of the table differ in a bit that both of them fix. -/
theorem eq_of_opcodeRows_agree :
    ∀ a ∈ opcodeRows, ∀ b ∈ opcodeRows, a.pattern &&& b.mask = b.pattern &&& a.mask → a = b := by
  decide

/-- A row's test is a test of each of the two bytes. -/
theorem OpcodeRow.selects_append {b0 b1 m0 m1 p0 p1 : Byte} (h0 : b0 &&& m0 = p0) (h1 : b1 &&& m1 = p1) :
    OpcodeRow.selects ⟨p0 ++ p1, m0 ++ m1⟩ (b0 ++ b1) = true :=
  beq_iff_eq.2 (BitVec.and_append.trans (h0 ▸ h1 ▸ rfl))

/-- A row that fixes the opcode byte looks at nothing of the next byte. -/
theorem selects_opcode (op b : Byte) : OpcodeRow.selects ⟨op ++ 0#8, 0xFF#8 ++ 0#8⟩ (op ++ b) = true :=
  OpcodeRow.selects_append BitVec.and_allOnes BitVec.and_zero

/-- A row that fixes the opcode byte and the `reg` field looks at no other field of the ModRM byte. -/
theorem selects_extension (op : Byte) (mode : BitVec 2) (reg rm : BitVec 3) :
    OpcodeRow.selects ⟨op ++ modrmByte 0#2 reg 0#3, 0xFF#8 ++ modrmByte 0#2 7#3 0#3⟩
      (op ++ modrmByte mode reg rm) = true :=
  OpcodeRow.selects_append BitVec.and_allOnes (by revert mode reg rm; decide)

/-- The row of `mov r32, imm32` fixes the top five bits of the opcode byte. -/
theorem selects_movImmOpcode (r : Reg) (b : Byte) :
    OpcodeRow.selects ⟨0xB8#8 ++ 0#8, 0xF8#8 ++ 0#8⟩ (movImmOpcode r ++ b) = true :=
  OpcodeRow.selects_append (by cases r <;> rfl) BitVec.and_zero

/-- The first byte of an operand's encoding is a ModRM byte with the given `reg` field. -/
theorem exists_encodeModRM_eq_cons (reg : BitVec 3) (d : RM32) :
    ∃ mode rm disp, encodeModRM reg d = modrmByte mode reg rm :: disp := by
  rcases d with r | (b | ⟨b, disp⟩ | ⟨b, disp⟩ | disp) <;> exact ⟨_, _, _, rfl⟩

/-- An instruction's row selects the first two bytes of its encoding (R67). -/
theorem row_selects_of_encodeWith_prefix {i : Instr} {spare : BitVec 3} {b0 b1 : Byte} {rest : List Byte}
    (h : i.encodeWith spare <+: b0 :: b1 :: rest) : i.row.selects (b0 ++ b1) = true := by
  obtain ⟨tail, h⟩ := h
  cases i with
  | addRm32R32 d r => exact (List.cons.inj h).1 ▸ selects_opcode 0x01#8 b1
  | subRm32Imm8 d imm =>
    obtain ⟨mode, rm, disp, hd⟩ := exists_encodeModRM_eq_cons 5#3 d
    simp only [Instr.encodeWith, hd, List.cons_append, List.cons.injEq] at h
    obtain ⟨rfl, rfl, _⟩ := h
    exact selects_extension 0x83#8 mode 5#3 rm
  | movRm32R32 d r => exact (List.cons.inj h).1 ▸ selects_opcode 0x89#8 b1
  | movR32Rm32 r d => exact (List.cons.inj h).1 ▸ selects_opcode 0x8B#8 b1
  | movR32Imm32 r imm => exact (List.cons.inj h).1 ▸ selects_movImmOpcode r b1
  | movRm32Imm32 d imm => exact (List.cons.inj h).1 ▸ selects_opcode 0xC7#8 b1
  | jmpRel32 rel => exact (List.cons.inj h).1 ▸ selects_opcode 0xE9#8 b1
  | jmpRel8 rel => exact (List.cons.inj h).1 ▸ selects_opcode 0xEB#8 b1
  | incRm32 d =>
    obtain ⟨mode, rm, disp, hd⟩ := exists_encodeModRM_eq_cons 0#3 d
    simp only [Instr.encodeWith, hd, List.cons_append, List.cons.injEq] at h
    obtain ⟨rfl, rfl, _⟩ := h
    exact selects_extension 0xFF#8 mode 0#3 rm

/-- Settles O10: decoded bytes begin with the instruction's encoding, which its row selects; and any two rows of the
table differ in a bit that both of them fix. -/
theorem opcodeRowsSelect : Obligations.OpcodeRowsSelect := by
  refine ⟨fun b0 b1 rest i h => ?selects, fun i j w hi hj => ?unique⟩
  case selects =>
    obtain ⟨_, _, hp⟩ := encodeWith_prefix_of_decode h
    exact row_selects_of_encodeWith_prefix hp
  case unique =>
    exact eq_of_opcodeRows_agree _ (row_mem_opcodeRows i) _ (row_mem_opcodeRows j) (OpcodeRow.agree_of_selects hi hj)

/-! ### Example words -/

/-- Settles O3: each word is evaluated. -/
theorem exampleWordsDecode : Obligations.ExampleWordsDecode :=
  ⟨rfl, rfl, rfl, rfl, rfl, rfl, rfl, rfl, rfl⟩

end Sys2Proof
end

section
/-! Memory (R31 to R38): loads, stores and fetches against the bytes, and the canonical form as the one form of its
data. -/

namespace Sys2Proof.Machine

/-! ### Loads and stores -/

/-- Settles O12: both widths are one test of the bounds, and the composed doubleword is its bytes' sum. -/
theorem memReadIsCheckedSum : Obligations.MemReadIsCheckedSum := by
  intro m a
  simp only [readByte_eq, readDword_eq]
  refine ⟨fun h => if_neg (by omega), fun h => if_pos h, fun h => if_neg (by omega), fun h => ⟨_, if_pos h, ?_⟩⟩
  rw [Memory.dwordAt, toNat_le32]
  simp [List.range_succ, Nat.mul_comm, Nat.add_assoc]

/-- Settles O13: a store is one test of the bounds, and one that passes sets the four bytes alone. -/
theorem memWriteIsAllOrNothing : Obligations.MemWriteIsAllOrNothing := by
  intro m a v
  rw [writeDword_eq]
  refine ⟨fun h => if_neg (by omega), fun h => ⟨_, if_pos h, rfl, fun i hi => ?stored, fun b hb => ?others⟩⟩
  case stored => rw [Memory.byteAt_setDword_add m a v hi, toNat_byteOf, Nat.shiftRight_eq_div_pow]
  case others => rw [Memory.byteAt_setDword, if_neg (by omega)]

/-- A doubleword that shares no byte with a store reads as before it. -/
theorem Memory.dwordAt_setDword_of_disjoint {m : Memory} {a b : Nat} {v : Word} (h : b + 4 ≤ a ∨ a + 4 ≤ b) :
    (m.setDword a v).dwordAt b = m.dwordAt b := by
  simp only [Memory.dwordAt, Memory.byteAt_setDword]
  rw [if_neg (by omega), if_neg (by omega), if_neg (by omega), if_neg (by omega)]

/-- Settles O14: a completed store is inside memory, and keeps the size. -/
theorem readAfterWrite : Obligations.ReadAfterWrite := by
  intro m n a v h
  obtain ⟨hvalid, rfl⟩ := writeDword_eq_ok.1 h
  refine ⟨readDword_eq_ok.2 ⟨hvalid, (Memory.dwordAt_setDword m a v).symm⟩, fun b hb => ?_⟩
  rw [readDword_eq, readDword_eq, Memory.setDword_size, Memory.dwordAt_setDword_of_disjoint hb]

/-! ### Fetches -/

/-- The decoder's byte fetch over the bytes at `pc`, as one test of the bounds (R36). -/
theorem fetchByte_instrBytes (s : State) {k : Nat} (hk : k + 1 ≤ maxInstrBytes) : fetchByte (instrBytes s) k =
    if s.pc.toNat + k < s.mem.size then .ok (s.mem.byteAt (s.pc.toNat + k)) else .error (.outside k .byte) := by
  rw [fetchByte, getElem?_instrBytes s hk]
  split_ifs <;> rfl

/-- The decoder's doubleword fetch over the bytes at `pc`, as one test of the bounds (R36). -/
theorem fetchDword_instrBytes (s : State) {k : Nat} (hk : k + 4 ≤ maxInstrBytes) : fetchDword (instrBytes s) k =
    if s.pc.toNat + k + 4 ≤ s.mem.size then .ok (s.mem.dwordAt (s.pc.toNat + k)) else .error (.outside k .dword) := by
  rw [fetchDword, getElem?_instrBytes s (by omega), getElem?_instrBytes s (by omega),
    getElem?_instrBytes s (by omega), getElem?_instrBytes s (by omega)]
  by_cases h : s.pc.toNat + (k + 3) < s.mem.size
  · rw [if_pos (by omega), if_pos (by omega), if_pos (by omega), if_pos h, if_pos (by omega)]
    rfl
  · rw [if_neg h, if_neg (c := s.pc.toNat + k + 4 ≤ s.mem.size) (by omega)]
    split
    · contradiction
    · rfl

/-- The byte fetch is the checked read of memory at `pc + k`, its error taken for the fault it stands for. -/
theorem mapError_fetchByte_instrBytes (s : State) {k : Nat} (hk : k + 1 ≤ maxInstrBytes) :
    (fetchByte (instrBytes s) k).mapError (decodeFault s.pc) = readByte .fetch s.mem (s.pc.toNat + k) := by
  rw [fetchByte_instrBytes s hk, readByte_eq]
  exact apply_ite (Except.mapError (decodeFault s.pc)) _ _ _

/-- The doubleword fetch is the checked read of memory at `pc + k`, its error taken for the fault it stands for. -/
theorem mapError_fetchDword_instrBytes (s : State) {k : Nat} (hk : k + 4 ≤ maxInstrBytes) :
    (fetchDword (instrBytes s) k).mapError (decodeFault s.pc) = readDword .fetch s.mem (s.pc.toNat + k) := by
  rw [fetchDword_instrBytes s hk, readDword_eq]
  exact apply_ite (Except.mapError (decodeFault s.pc)) _ _ _

/-- Settles O15: a fetch is the checked read, its error taken for the fault it stands for. -/
theorem fetchReadsMemoryAtPc : Obligations.FetchReadsMemoryAtPc := by
  refine fun s k => ⟨fun hk => ?byte, fun hk => ?dword⟩
  case byte =>
    rw [← mapError_fetchByte_instrBytes s hk]
    cases fetchByte (instrBytes s) k <;> rfl
  case dword =>
    rw [← mapError_fetchDword_instrBytes s hk]
    cases fetchDword (instrBytes s) k <;> rfl

/-- Settles O16: an instruction byte is the byte of memory, and a completed store lies inside memory. -/
theorem storesAreSeenByFetch : Obligations.StoresAreSeenByFetch := by
  intro s n a v p k h hk
  obtain ⟨hvalid, rfl⟩ := writeDword_eq_ok.1 h
  have hsize : a + 4 ≤ s.mem.size := (Memory.valid_iff _ _ _).1 hvalid
  rw [getElem?_instrBytes _ hk, getElem?_instrBytes _ hk]
  simp only [Memory.setDword_size, Memory.byteAt_setDword]
  refine ⟨fun hlow hhigh => ?stored, fun hout => ?others⟩
  case stored => rw [if_pos (by omega), if_pos ⟨hlow, hhigh⟩]
  case others => rw [if_neg (c := _ ∧ _) (by omega)]

/-! ### The canonical form -/

/-- In canonical form nothing is listed at or below the bound. -/
theorem cellAt_of_canonicalCells {size low a : Nat} {cells : List Host.Cell}
    (h : canonicalCells size (some low) cells = true) (ha : a ≤ low) : cellAt cells a = unwrittenByte := by
  induction cells generalizing low with
  | nil => rfl
  | cons c rest ih =>
    obtain ⟨k, w⟩ := c
    simp only [canonicalCells, Bool.and_eq_true, decide_eq_true_eq] at h
    obtain ⟨⟨⟨hlow, _⟩, _⟩, hrest⟩ := h
    rw [cellAt, if_neg (by omega)]
    exact ih hrest (by omega)

/-- The first entry of a canonical list is no unwritten byte, and the rest is canonical above it. -/
theorem canonicalCells_cons {size k : Nat} {low : Option Nat} {w : Byte} {rest : List Host.Cell}
    (h : canonicalCells size low ((k, w) :: rest) = true) :
    w ≠ unwrittenByte ∧ canonicalCells size (some k) rest = true := by
  simp only [canonicalCells, Bool.and_eq_true, bne_iff_ne] at h
  obtain ⟨⟨_, hw⟩, hrest⟩ := h
  exact ⟨hw, hrest⟩

/-- A canonical list reads as it does at its first entry nowhere below that entry. -/
theorem le_of_cellAt_canonicalCells {size k a : Nat} {low : Option Nat} {w : Byte} {rest : List Host.Cell}
    (h : canonicalCells size low ((k, w) :: rest) = true) (ha : cellAt ((k, w) :: rest) a ≠ unwrittenByte) : k ≤ a := by
  by_contra hlt
  rw [cellAt, if_neg (by omega)] at ha
  exact ha (cellAt_of_canonicalCells (canonicalCells_cons h).2 (by omega))

@[simp] theorem cellAt_cons_self (k : Nat) (w : Byte) (rest : List Host.Cell) : cellAt ((k, w) :: rest) k = w :=
  if_pos rfl

/-- Canonical lists that read alike everywhere have the same entries: each one's first entry is where it first differs
from the unwritten byte. -/
theorem eq_of_cellAt_eq {size : Nat} {low low' : Option Nat} {cells cells' : List Host.Cell}
    (h : canonicalCells size low cells = true) (h' : canonicalCells size low' cells' = true)
    (heq : ∀ a, cellAt cells a = cellAt cells' a) : cells = cells' := by
  induction cells generalizing low low' cells' with
  | nil =>
    cases cells' with
    | nil => rfl
    | cons c' rest' =>
      have hk := heq c'.1
      rw [cellAt_cons_self] at hk
      exact absurd hk.symm (canonicalCells_cons h').1
  | cons c rest ih =>
    cases cells' with
    | nil =>
      have hk := heq c.1
      rw [cellAt_cons_self] at hk
      exact absurd hk (canonicalCells_cons h).1
    | cons c' rest' =>
      obtain ⟨k, w⟩ := c
      obtain ⟨k', w'⟩ := c'
      obtain ⟨hw, hrest⟩ := canonicalCells_cons h
      obtain ⟨hw', hrest'⟩ := canonicalCells_cons h'
      have hle : k ≤ k' := le_of_cellAt_canonicalCells h (by simpa [heq] using hw')
      have hge : k' ≤ k := le_of_cellAt_canonicalCells h' (by simpa [← heq] using hw)
      obtain rfl : k = k' := le_antisymm hle hge
      obtain rfl : w = w' := by simpa using heq k
      congr 1
      refine ih hrest hrest' fun a => ?_
      by_cases ha : a = k
      · rw [ha, cellAt_of_canonicalCells hrest le_rfl, cellAt_of_canonicalCells hrest' le_rfl]
      · simpa [cellAt, Ne.symm ha] using heq a

/-- Settles O17: the sizes agree, and `eq_of_cellAt_eq` gives the entries. -/
theorem canonicalMemoriesAreEqualData : Obligations.CanonicalMemoriesAreEqualData := by
  rintro ⟨size, cells⟩ ⟨size', cells'⟩ hm hn hsize hbytes
  simp only [Memory.wf, Bool.and_eq_true] at hm hn
  obtain rfl : size = size' := hsize
  rw [eq_of_cellAt_eq hm.2 hn.2 hbytes]

end Sys2Proof.Machine
end

section
/-! Operands and what each instruction answers (R84 to R123): the arithmetic of signed sums modulo 2^32, then one
completion lemma and one fault lemma per shared operation, from which every instruction's statement follows. -/

namespace Sys2Proof

/-! ### Words -/

/-- `sext_8` keeps the signed value (R8). -/
theorem toInt_sext8 (b : Byte) : (sext8 b).toInt = b.toInt :=
  BitVec.toInt_signExtend_of_le (by decide)

/-- Adding a word is adding its signed value, modulo 2^32. -/
theorem toNat_add_eq_emod (x y : Word) : ((x + y).toNat : Int) = (x.toNat + y.toInt) % 2 ^ 32 := by
  rw [BitVec.toNat_add, BitVec.toInt_eq_toNat_cond]
  split <;> omega

/-- Subtracting a word is subtracting its signed value, modulo 2^32. -/
theorem toNat_sub_eq_emod (x y : Word) : ((x - y).toNat : Int) = (x.toNat - y.toInt) % 2 ^ 32 := by
  rw [BitVec.toNat_sub, BitVec.toInt_eq_toNat_cond]
  split <;> omega

theorem toNat_add_ofNat (x : Word) (n : Nat) : (x + BitVec.ofNat 32 n).toNat = (x.toNat + n) % 2 ^ 32 := by
  rw [BitVec.toNat_add, BitVec.toNat_ofNat, Nat.add_mod_mod]

namespace Machine

/-! ### Operands -/

/-- Settles O18: the displacement forms are sums with a signed value. -/
theorem effectiveAddresses : Obligations.EffectiveAddresses := by
  refine fun s b d8 d32 => ⟨rfl, rfl, ?disp8, toNat_add_eq_emod _ _⟩
  case disp8 => rw [← toInt_sext8, ← toNat_add_eq_emod]; rfl

/-- Settles O19: the forms are equations of the two operations, and both are possible on the same operands. -/
theorem operandAccess : Obligations.OperandAccess := by
  refine fun s v => ⟨fun _ => rfl, fun _ => rfl, fun _ => rfl, fun m f h => ?fault, fun m n h => ?written,
    fun d a h => ?both⟩
  case fault => rw [writeRM32, h]; rfl
  case written => rw [writeRM32, h]; rfl
  case both => exact ⟨_, writeRM32_eq_ok.2 ⟨(readRM32_eq_ok.1 h).1, rfl⟩⟩

section
variable {s : State} {d : RM32} {v : Word} {f : Word → Word} {len : Nat} {e : Fault}

/-- The place an operand designates holds what was written to it. -/
theorem operandHolds_writtenRM32 : operandHolds s ((writtenRM32 s d v).advance len) d v := by
  cases d with
  | reg r => exact State.setReg_reg_same s r v
  | mem m => exact Memory.dwordAt_setDword _ _ _

/-- A read-modify-write of a valid operand completes, with the result in the operand's place. -/
theorem updateRM32_completes (f : Word → Word) (len : Nat) (hv : operandValid s d = true) :
    ∃ t, updateRM32 s d f len = .next t ∧ operandHolds s t d (f (operandValue s d)) ∧
      t.pc.toNat = (s.pc.toNat + len) % 2 ^ 32 := by
  refine ⟨_, updateRM32_eq_next.2 ⟨hv, rfl⟩, operandHolds_writtenRM32, ?_⟩
  rw [State.advance_pc, writtenRM32_pc, toNat_add_ofNat]

/-- A store to a valid operand completes, with the value in the operand's place. -/
theorem storeRM32_completes (v : Word) (len : Nat) (hv : operandValid s d = true) :
    ∃ t, storeRM32 s d v len = .next t ∧ operandHolds s t d v ∧ t.pc.toNat = (s.pc.toNat + len) % 2 ^ 32 := by
  refine ⟨_, storeRM32_eq_next.2 ⟨hv, rfl⟩, operandHolds_writtenRM32, ?_⟩
  rw [State.advance_pc, writtenRM32_pc, toNat_add_ofNat]

/-! ### Faults -/

/-- The fault of an access of the operand: it is in memory, and one of its four bytes is outside (R85, R86, R131). -/
def OperandFault (kind : AccessKind) (s : State) (d : RM32) (e : Fault) : Prop :=
  ∃ m, d = .mem m ∧ s.mem.size < (effectiveAddress s m).toNat + 4 ∧ e = .bounds kind (effectiveAddress s m).toNat .dword

theorem operandFault_mem_iff {kind : AccessKind} {m : MemOperand} :
    OperandFault kind s (.mem m) (.bounds kind (effectiveAddress s m).toNat .dword) ↔
      s.mem.size < (effectiveAddress s m).toNat + 4 := by
  simp [OperandFault]

/-- An operand that faults is not valid, so no other access of it completes. -/
theorem OperandFault.not_valid {kind : AccessKind} (h : OperandFault kind s d e) : operandValid s d ≠ true := by
  obtain ⟨m, rfl, hsize, _⟩ := h
  exact fun hv => absurd ((Memory.valid_iff _ _ _).1 hv) (Nat.not_le.2 hsize)

theorem readRM32_eq_error : readRM32 s d = .error e ↔ OperandFault .read s d e := by
  cases d with
  | reg r => simp [readRM32, OperandFault]
  | mem m =>
    simp only [readRM32, readDword_eq, OperandFault, RM32.mem.injEq, exists_eq_left']
    split_ifs with h
    · simp [h]
    · simp [Nat.lt_of_not_le h, eq_comm]

theorem writeRM32_eq_error : writeRM32 s d v = .error e ↔ OperandFault .write s d e := by
  cases d with
  | reg r => simp [writeRM32, OperandFault]
  | mem m =>
    simp only [writeRM32, writeDword_eq, OperandFault, RM32.mem.injEq, exists_eq_left']
    split_ifs with h
    · simp [h, bind, Except.bind, pure, Except.pure]
    · simp [Nat.lt_of_not_le h, bind, Except.bind, eq_comm]

/-- A read-modify-write faults in its read alone: after the read its write is inside memory. -/
theorem updateRM32_eq_fault : updateRM32 s d f len = .fault e ↔ OperandFault .read s d e := by
  rw [updateRM32, finish_eq_fault, except_bind_eq_error, readRM32_eq_error, or_iff_left]
  rintro ⟨a, ha, h⟩
  obtain hw | ⟨_, _, ⟨⟩⟩ := except_bind_eq_error.1 h
  exact (writeRM32_eq_error.1 hw).not_valid (readRM32_eq_ok.1 ha).1

theorem storeRM32_eq_fault : storeRM32 s d v len = .fault e ↔ OperandFault .write s d e := by
  rw [storeRM32, finish_eq_fault, except_bind_eq_error, writeRM32_eq_error, or_iff_left]
  rintro ⟨_, _, ⟨⟩⟩

theorem execMovLoad_eq_fault {r : Reg} : execMovLoad r d s = .fault e ↔ OperandFault .read s d e := by
  rw [execMovLoad, finish_eq_fault, except_bind_eq_error, readRM32_eq_error, or_iff_left]
  rintro ⟨_, _, ⟨⟩⟩

end

/-! ### Results -/

/-- Settles O20: the addition of two words is the sum modulo 2^32. -/
theorem addResult : Obligations.AddResult := by
  intro s d r hv
  obtain ⟨t, ht, hholds, hpc⟩ := updateRM32_completes (fun a => a + s.reg r) (1 + d.modrmLength) hv
  exact ⟨t, _, ht, hholds, BitVec.toNat_add _ _, by rw [hpc, Nat.add_assoc]⟩

/-- Settles O21: the immediate is subtracted as the signed value that its extension keeps. -/
theorem subResult : Obligations.SubResult := by
  intro s d imm hv
  obtain ⟨t, ht, hholds, hpc⟩ := updateRM32_completes (fun a => a - sext8 imm) (2 + d.modrmLength) hv
  exact ⟨t, _, ht, hholds, by rw [toNat_sub_eq_emod, toInt_sext8], by rw [hpc]; congr 1; omega⟩

/-- Settles O22: the addition of 1 is the sum modulo 2^32. -/
theorem incResult : Obligations.IncResult := by
  intro s d hv
  obtain ⟨t, ht, hholds, hpc⟩ := updateRM32_completes (fun a => a + 1#32) (1 + d.modrmLength) hv
  exact ⟨t, _, ht, hholds, BitVec.toNat_add _ _, by rw [hpc, Nat.add_assoc]⟩

/-- Settles O23: a store of the register's value. -/
theorem movStoreResult : Obligations.MovStoreResult := by
  intro s d r hv
  obtain ⟨t, ht, hholds, hpc⟩ := storeRM32_completes (s.reg r) (1 + d.modrmLength) hv
  exact ⟨t, ht, hholds, by rw [hpc, Nat.add_assoc]⟩

/-- Settles O24: the register is written with a value read before the write. -/
theorem movLoadResult : Obligations.MovLoadResult := by
  intro s r d hv
  refine ⟨_, execMovLoad_eq_next.2 ⟨hv, rfl⟩, ?value, ?pc⟩
  case value => rw [State.advance_reg, State.setReg_reg_same]
  case pc => rw [State.advance_pc, State.setReg_pc, toNat_add_ofNat, Nat.add_assoc]

/-- Settles O25: a store of the immediate. -/
theorem movImmResult : Obligations.MovImmResult := by
  intro s d imm hv
  obtain ⟨t, ht, hholds, hpc⟩ := storeRM32_completes imm (5 + d.modrmLength) hv
  exact ⟨t, ht, hholds, by rw [hpc]; congr 1; omega⟩

/-- Settles O27: the instruction accesses no memory, so nothing can stop it. -/
theorem movRegImmResult : Obligations.MovRegImmResult := by
  refine fun s r imm => ⟨_, rfl, ?value, ?pc⟩
  case value => rw [State.advance_reg, State.setReg_reg_same]
  case pc => rw [State.advance_pc, State.setReg_pc, toNat_add_ofNat]

/-- The target of a jump, as a signed sum modulo 2^32 (R122, R123). -/
theorem toNat_jumpTarget (pc offset : Word) {len : Nat} :
    ((pc + BitVec.ofNat 32 len + offset).toNat : Int) = (pc.toNat + len + offset.toInt) % 2 ^ 32 := by
  rw [toNat_add_eq_emod, toNat_add_ofNat, Int.natCast_mod]
  push_cast
  rw [Int.emod_add_emod]

/-- Settles O28: the jump moves `pc` alone, to its target. -/
theorem jmpRel32Result : Obligations.JmpRel32Result :=
  fun s rel => ⟨_, rfl, toNat_jumpTarget s.pc rel, rfl, rfl, rfl⟩

/-- Settles O29: the jump moves `pc` alone, to its target; the offset is the signed value its extension keeps. -/
theorem jmpRel8Result : Obligations.JmpRel8Result :=
  fun s rel => ⟨_, rfl, toInt_sext8 rel ▸ toNat_jumpTarget s.pc (sext8 rel), rfl, rfl, rfl⟩

/-- Settles O30: the four instructions read their operand first. -/
theorem readOperandFaults : Obligations.ReadOperandFaults := by
  intro s m r imm i hi
  simp only [List.mem_cons, List.not_mem_nil, or_false] at hi
  rw [← operandFault_mem_iff]
  obtain rfl | rfl | rfl | rfl := hi
  · exact updateRM32_eq_fault
  · exact updateRM32_eq_fault
  · exact updateRM32_eq_fault
  · exact execMovLoad_eq_fault

/-- Settles O31: the two instructions are stores. -/
theorem writeOperandFaults : Obligations.WriteOperandFaults := by
  intro s m r imm i hi
  simp only [List.mem_cons, List.not_mem_nil, or_false] at hi
  rw [← operandFault_mem_iff]
  obtain rfl | rfl := hi
  · exact storeRM32_eq_fault
  · exact storeRM32_eq_fault

end Machine
end Sys2Proof
end

section
/-! What an instruction changes, said once for all nine (R82), and what follows from it: the frames, the outcomes of a
step, the invariant of every reachable state, and that FLAGS is never read (R18). -/

namespace Sys2Proof.Machine

/-! ### The one write of an instruction -/

/-- From `s` to `t`, instruction `i` wrote one valid operand and moved `pc`, or moved `pc` alone. -/
inductive Writes (s : State) (i : Instr) : State → Prop
  | operand {d : RM32} (v : Word) (len : Nat) (hv : operandValid s d = true) (hreg : destReg i = operandDestReg d)
      (hstore : storeAddress s i = operandStoreAddress s d) : Writes s i ((writtenRM32 s d v).advance len)
  | pc (p : Word) (hreg : destReg i = none) (hstore : storeAddress s i = none) : Writes s i (s.setPc p)

section
variable {s t : State} {i : Instr} {d : RM32} {len : Nat}

theorem Writes.of_updateRM32 {f : Word → Word} (h : updateRM32 s d f len = .next t)
    (hreg : destReg i = operandDestReg d) (hstore : storeAddress s i = operandStoreAddress s d) : Writes s i t := by
  obtain ⟨hv, rfl⟩ := updateRM32_eq_next.1 h
  exact .operand _ _ hv hreg hstore

theorem Writes.of_storeRM32 {v : Word} (h : storeRM32 s d v len = .next t)
    (hreg : destReg i = operandDestReg d) (hstore : storeAddress s i = operandStoreAddress s d) : Writes s i t := by
  obtain ⟨hv, rfl⟩ := storeRM32_eq_next.1 h
  exact .operand _ _ hv hreg hstore

/-- All that executing an instruction can change. -/
theorem writes_of_exec (h : exec i s = .next t) : Writes s i t := by
  cases i with
  | addRm32R32 d r => exact .of_updateRM32 h rfl rfl
  | subRm32Imm8 d imm => exact .of_updateRM32 h rfl rfl
  | movRm32R32 d r => exact .of_storeRM32 h rfl rfl
  | movR32Rm32 r d =>
    obtain ⟨_, rfl⟩ := execMovLoad_eq_next.1 h
    exact .operand (d := .reg r) _ _ rfl rfl rfl
  | movR32Imm32 r imm =>
    cases h
    exact .operand (d := .reg r) _ _ rfl rfl rfl
  | movRm32Imm32 d imm => exact .of_storeRM32 h rfl rfl
  | jmpRel32 rel =>
    cases h
    exact .pc _ rfl rfl
  | jmpRel8 rel =>
    cases h
    exact .pc _ rfl rfl
  | incRm32 d => exact .of_updateRM32 h rfl rfl

/-! ### Frames -/

/-- A write of an operand changes the place it designates alone. -/
theorem frame_writtenRM32 (v : Word) :
    Frame s ((writtenRM32 s d v).advance len) (operandDestReg d) (operandStoreAddress s d) := by
  cases d with
  | reg r =>
    exact ⟨fun q hq => State.setReg_reg_other s r q v fun h => hq (congrArg some h.symm), rfl, rfl, fun _ _ => rfl⟩
  | mem m =>
    refine ⟨fun _ _ => rfl, rfl, rfl, fun a ha => ?_⟩
    have hout := ha _ rfl
    exact (Memory.byteAt_setDword _ _ _ _).trans (if_neg (by omega))

theorem Writes.frame (h : Writes s i t) : Frame s t (destReg i) (storeAddress s i) := by
  cases h with
  | operand v len _ hreg hstore => exact hreg ▸ hstore ▸ frame_writtenRM32 v
  | pc p => exact ⟨fun _ _ => rfl, rfl, rfl, fun _ _ => rfl⟩

/-- The frame of every instruction, by what it may write. -/
theorem exec_frame (h : exec i s = .next t) : Frame s t (destReg i) (storeAddress s i) := (writes_of_exec h).frame

/-- An instruction never writes both a register and memory (R82). -/
theorem Writes.destReg_or_storeAddress_eq_none (h : Writes s i t) : destReg i = none ∨ storeAddress s i = none := by
  cases h with
  | @operand d _ _ _ hreg hstore =>
    cases d with
    | reg r => exact .inr hstore
    | mem m => exact .inl hreg
  | pc p hreg => exact .inl hreg

/-- A completed store lies inside memory. -/
theorem Writes.store_le_size {a : Nat} (h : Writes s i t) (ha : storeAddress s i = some a) : a + 4 ≤ s.mem.size := by
  cases h with
  | @operand d _ _ hv _ hstore =>
    cases d with
    | reg r => cases hstore.symm.trans ha
    | mem m =>
      cases hstore.symm.trans ha
      exact (Memory.valid_iff _ _ _).1 hv
  | pc p _ hstore => cases hstore.symm.trans ha

/-- The invariant is kept by every write of an operand and every move of `pc`. -/
theorem Writes.inv (h : Writes s i t) (hinv : s.Inv) : t.Inv := by
  obtain ⟨hwf, hflags⟩ := hinv
  cases h with
  | operand v len hv => exact ⟨writtenRM32_wf hwf hv, (writtenRM32_flags ..).trans hflags⟩
  | pc p => exact ⟨hwf, hflags⟩

end

/-- Settles O32: the three write their operand. -/
theorem arithmeticFrame : Obligations.ArithmeticFrame := by
  intro s t d r imm i hi h
  simp only [List.mem_cons, List.not_mem_nil, or_false] at hi
  obtain rfl | rfl | rfl := hi <;> exact exec_frame h

/-- Settles O33: the two write their operand. -/
theorem movStoreFrame : Obligations.MovStoreFrame := by
  intro s t d r imm i hi h
  simp only [List.mem_cons, List.not_mem_nil, or_false] at hi
  obtain rfl | rfl := hi <;> exact exec_frame h

/-- Settles O34: the two write a register. -/
theorem movRegisterFrame : Obligations.MovRegisterFrame := by
  intro s t r d imm i hi h
  simp only [List.mem_cons, List.not_mem_nil, or_false] at hi
  obtain rfl | rfl := hi <;> exact exec_frame h

/-- Settles O35: the two write nothing but `pc`. -/
theorem jumpFrame : Obligations.JumpFrame := by
  intro s t rel32 rel8 i hi h
  simp only [List.mem_cons, List.not_mem_nil, or_false] at hi
  obtain rfl | rfl := hi <;> exact exec_frame h

/-! ### The outcomes of a step -/

/-- Settles O37: a step executes what it decodes. -/
theorem stepRunsTheDecodedInstruction : Obligations.StepRunsTheDecodedInstruction := by
  intro s i h
  rw [step, fetchDecode_eq_ok.2 h]

/-- No arm of the dispatcher refuses: each ends in `finish` or in a next state. -/
theorem exec_ne_refused (i : Instr) (s : State) (r : Refusal) : exec i s ≠ .refused r := by
  cases i with
  | movR32Imm32 _ _ => exact nofun
  | jmpRel32 _ => exact nofun
  | jmpRel8 _ => exact nofun
  | _ => exact finish_ne_refused _ r

theorem step_ne_refused (s : State) (r : Refusal) : step s ≠ .refused r := by
  unfold step
  cases fetchDecode s with
  | ok i => exact exec_ne_refused i s r
  | error f => exact nofun

/-- Settles O44: a step is never refused, and a next state is one write of the decoded instruction away. -/
theorem stepOutcomes : Obligations.StepOutcomes := by
  intro s
  cases h : step s with
  | next t =>
    obtain ⟨i, hi, hexec⟩ := step_eq_next.1 h
    have hw := writes_of_exec hexec
    exact .inl ⟨i, t, hi, rfl, hw.frame, hw.destReg_or_storeAddress_eq_none, fun _ => hw.store_le_size⟩
  | fault f => exact .inr ⟨f, rfl⟩
  | refused r => exact absurd h (step_ne_refused s r)

/-! ### The invariant -/

/-- Settles O46: a next state is one write of the decoded instruction away, and every write keeps the invariant. -/
theorem stepKeepsInvariant : Obligations.StepKeepsInvariant := by
  intro s t hinv h
  obtain ⟨i, _, hexec⟩ := step_eq_next.1 h
  exact (writes_of_exec hexec).inv hinv

theorem step_size {s t : State} (h : step s = .next t) : t.mem.size = s.mem.size := by
  obtain ⟨i, _, hexec⟩ := step_eq_next.1 h
  exact (exec_frame hexec).size

/-- The state after `Reset` with a size in R4's range meets the invariant: nothing is listed in its memory. -/
theorem State.construct_inv {size : Nat} (eip esp : Word) (hlow : 1 ≤ size) (hhigh : size ≤ 2 ^ 32) :
    (State.construct size eip esp).Inv := by
  refine ⟨?_, rfl⟩
  simp only [Memory.wf, Bool.and_eq_true]
  exact ⟨⟨decide_eq_true hlow, decide_eq_true hhigh⟩, rfl⟩

/-- Settles O47: the parameters of `State.reset` are in R4's range. -/
theorem resetMeetsInvariant : Obligations.ResetMeetsInvariant :=
  ⟨State.construct_inv _ _ (by decide) (by decide), fun _ eip esp => State.construct_inv eip esp⟩

/-- Whatever every step keeps, every run keeps. -/
theorem steps_keeps {P : State → Prop} (hstep : ∀ s t, P s → step s = .next t → P t) {n : Nat} {s t : State}
    (hs : P s) (h : steps n s = .next t) : P t := by
  induction n generalizing s with
  | zero =>
    cases h
    exact hs
  | succ n ih =>
    rw [steps] at h
    split at h
    · next u hu => exact ih (hstep s u hs hu) h
    · cases h
    · cases h

/-- All that `Load` can answer with a state. -/
theorem load_eq_next {origin : Nat} {image : List Byte} {s t : State} : load origin image s = .next t ↔
    origin + image.length ≤ s.mem.size ∧ t = { s with mem := s.mem.setBytes origin image } := by
  unfold load
  split_ifs with h <;> simp [h, eq_comm]

/-- A launch that is not refused is a `Reset` and a `Load`, in R4's ranges. -/
theorem launch_eq_next {p : LaunchParams} {s : State} : launch p = .next s ↔
    p.inRange = true ∧ load p.loadOrigin p.image (State.construct p.memSize p.initEip p.initEsp) = .next s := by
  unfold launch
  split_ifs with h <;> simp [h]

/-- A launched machine meets the invariant and has the size it was launched with. -/
theorem launch_inv {p : LaunchParams} {s : State} (h : launch p = .next s) : s.Inv ∧ s.mem.size = p.memSize := by
  obtain ⟨hrange, hload⟩ := launch_eq_next.1 h
  obtain ⟨_, rfl⟩ := load_eq_next.1 hload
  simp only [LaunchParams.inRange, Bool.and_eq_true, decide_eq_true_eq] at hrange
  obtain ⟨⟨hlow, hhigh⟩, _⟩ := hrange
  obtain ⟨hwf, hflags⟩ := State.construct_inv p.initEip p.initEsp hlow hhigh
  exact ⟨⟨Memory.setBytes_wf _ _ hwf, hflags⟩, Memory.setBytes_size _ _ _⟩

/-- Settles O48: the launch establishes both, and every step keeps both. -/
theorem reachableStatesMeetInvariant : Obligations.ReachableStatesMeetInvariant := by
  intro p s t n hlaunch hsteps
  refine steps_keeps (P := fun s => s.Inv ∧ s.mem.size = p.memSize) ?_ (launch_inv hlaunch) hsteps
  rintro s t ⟨hinv, hsize⟩ h
  exact ⟨stepKeepsInvariant s t hinv h, (step_size h).trans hsize⟩

/-! ### FLAGS -/

/-- The outcome with another value in the next state's FLAGS. -/
def withFlags (f : Word) : Result → Result
  | .next t => .next { t with flags := f }
  | .fault e => .fault e
  | .refused r => .refused r

section
variable (s : State) (d : RM32) (f : Word)

theorem readRM32_withFlags : readRM32 { s with flags := f } d = readRM32 s d := by
  rcases d with r | (b | ⟨b, disp⟩ | ⟨b, disp⟩ | disp) <;> rfl

theorem writeRM32_withFlags (v : Word) :
    writeRM32 { s with flags := f } d v = (writeRM32 s d v).map fun t => { t with flags := f } := by
  cases d with
  | reg r => rfl
  | mem m =>
    have ha : effectiveAddress { s with flags := f } m = effectiveAddress s m := by cases m <;> rfl
    simp only [writeRM32, ha]
    cases writeDword s.mem (effectiveAddress s m).toNat v <;> rfl

theorem updateRM32_withFlags (g : Word → Word) (len : Nat) :
    updateRM32 { s with flags := f } d g len = withFlags f (updateRM32 s d g len) := by
  simp only [updateRM32, readRM32_withFlags, writeRM32_withFlags]
  cases readRM32 s d with
  | error e => rfl
  | ok a =>
    simp only [bind, Except.bind]
    cases writeRM32 s d (g a) <;> rfl

theorem storeRM32_withFlags (v : Word) (len : Nat) :
    storeRM32 { s with flags := f } d v len = withFlags f (storeRM32 s d v len) := by
  simp only [storeRM32, writeRM32_withFlags]
  cases writeRM32 s d v <;> rfl

theorem execMovLoad_withFlags (r : Reg) :
    execMovLoad r d { s with flags := f } = withFlags f (execMovLoad r d s) := by
  simp only [execMovLoad, readRM32_withFlags]
  cases readRM32 s d <;> rfl

/-- No instruction reads FLAGS. -/
theorem exec_withFlags (i : Instr) : exec i { s with flags := f } = withFlags f (exec i s) := by
  cases i with
  | addRm32R32 d r => exact updateRM32_withFlags s d f _ _
  | subRm32Imm8 d imm => exact updateRM32_withFlags s d f _ _
  | movRm32R32 d r => exact storeRM32_withFlags s d f _ _
  | movR32Rm32 r d => exact execMovLoad_withFlags s d f r
  | movR32Imm32 r imm => rfl
  | movRm32Imm32 d imm => exact storeRM32_withFlags s d f _ _
  | jmpRel32 rel => rfl
  | jmpRel8 rel => rfl
  | incRm32 d => exact updateRM32_withFlags s d f _ _

end

/-- Settles O45: the bytes at `pc` do not depend on FLAGS, and no instruction reads it. -/
theorem flagsAreNeverRead : Obligations.FlagsAreNeverRead := by
  intro s f
  have hfetch : fetchDecode { s with flags := f } = fetchDecode s := rfl
  have hstep : step { s with flags := f } = withFlags f (step s) := by
    unfold step
    rw [hfetch]
    cases fetchDecode s with
    | ok i => exact exec_withFlags s f i
    | error e => rfl
  rw [hstep]
  cases step s <;> rfl

end Sys2Proof.Machine
end

section
/-! The step from the bytes at `pc` (R80, R133): the encodings it runs, the order of its fetch faults, and that every
bounds fault is of an access that leaves memory. -/

namespace Sys2Proof.Machine

/-! ### Encodings in memory -/

theorem length_le_maxInstrBytes (i : Instr) : i.length ≤ maxInstrBytes := by
  cases i with
  | addRm32R32 d r => exact (Laws.EncodeLength.addRm32R32 d r).2.2
  | subRm32Imm8 d imm => exact (Laws.EncodeLength.subRm32Imm8 d imm).2.2
  | movRm32R32 d r => exact (Laws.EncodeLength.movRm32R32 d r).2.2
  | movR32Rm32 r d => exact (Laws.EncodeLength.movR32Rm32 r d).2.2
  | movR32Imm32 r imm => exact (Laws.EncodeLength.movR32Imm32 r imm).2.2
  | movRm32Imm32 d imm => exact (Laws.EncodeLength.movRm32Imm32 d imm).2.2
  | jmpRel32 rel => exact (Laws.EncodeLength.jmpRel32 rel).2.2
  | jmpRel8 rel => exact (Laws.EncodeLength.jmpRel8 rel).2.2
  | incRm32 d => exact (Laws.EncodeLength.incRm32 d).2.2

/-- Settles O38: the fetched bytes begin with the encoding that memory holds. -/
theorem stepRunsTheEncodedInstruction : Obligations.StepRunsTheEncodedInstruction := by
  intro s i spare hwf hsize hbytes
  have hp : i.encodeWith spare <+: instrBytes s := by
    rw [List.prefix_iff_getElem?]
    intro k hk
    have hlen : k < i.length := length_encodeWith spare i ▸ hk
    have hmax : k < maxInstrBytes := hlen.trans_le (length_le_maxInstrBytes i)
    rw [getElem?_instrBytes_eq_some hmax]
    exact ⟨by omega, (hbytes k _ (List.getElem?_eq_getElem hk)).symm⟩
  exact stepRunsTheDecodedInstruction s i (decode_of_encodeWith_prefix hwf hp)

section
variable {s : State}

theorem getElem?_zero_instrBytes (h : s.pc.toNat < s.mem.size) : (instrBytes s)[0]? = some (s.mem.byteAt s.pc.toNat) :=
  (getElem?_instrBytes_eq_some (by decide)).2 ⟨h, rfl⟩

theorem getElem?_one_instrBytes (h : s.pc.toNat + 1 < s.mem.size) :
    (instrBytes s)[1]? = some (s.mem.byteAt (s.pc.toNat + 1)) :=
  (getElem?_instrBytes_eq_some (by decide)).2 ⟨h, rfl⟩

theorem fetchByte_instrBytes_outside {k : Nat} (hk : k + 1 ≤ maxInstrBytes) (h : s.mem.size ≤ s.pc.toNat + k) :
    fetchByte (instrBytes s) k = .error (.outside k .byte) :=
  (fetchByte_instrBytes s hk).trans (if_neg (by omega))

theorem fetchDword_instrBytes_outside {k : Nat} (hk : k + 4 ≤ maxInstrBytes) (h : s.mem.size < s.pc.toNat + k + 4) :
    fetchDword (instrBytes s) k = .error (.outside k .dword) :=
  (fetchDword_instrBytes s hk).trans (if_neg (by omega))

end

theorem toNat_movImmOpcode (r : Reg) : (movImmOpcode r).toNat = 0xB8 + r.bits.toNat := by cases r <;> rfl

/-- Settles O26: the opcode byte leaves one fetch, of the immediate, and the instruction itself cannot fault. -/
theorem movRegImmStep : Obligations.MovRegImmStep := by
  intro s r imm hpc hbyte
  have hop : s.mem.byteAt s.pc.toNat = movImmOpcode r := BitVec.eq_of_toNat_eq (hbyte.trans (toNat_movImmOpcode r).symm)
  have h0 : (instrBytes s)[0]? = some (movImmOpcode r) := hop ▸ getElem?_zero_instrBytes hpc
  have hdecode : decode (instrBytes s) = (do return .movR32Imm32 r (← fetchDword (instrBytes s) 1)) := by
    rw [decode_movR32Imm32 h0 (isMovR32Imm32_movImmOpcode r), rmField_movImmOpcode, Reg.ofBits_bits]
  refine ⟨fun hsize => ?outside, fun hsize himm => ?inside⟩
  case outside =>
    rw [fetchDword_instrBytes_outside (by decide) (by omega)] at hdecode
    exact step_of_decode_error hdecode
  case inside =>
    rw [fetchDword_instrBytes s (by decide), if_pos (by omega), himm] at hdecode
    refine ⟨(s.setReg r imm).advance 5, stepRunsTheDecodedInstruction s _ hdecode, rfl, ?_, ?_, fun q hq => ?_, rfl, rfl⟩
    · rw [State.advance_reg, State.setReg_reg_same]
    · rw [State.advance_pc, State.setReg_pc, toNat_add_ofNat]
    · rw [State.advance_reg, State.setReg_reg_other _ _ _ _ hq]

/-! ### The order of the fetch faults -/

/-- The operand's ModRM bytes leave room for an immediate within the ten bytes of an instruction. -/
theorem immediate_le_maxInstrBytes (d : RM32) : 1 + d.modrmLength + 4 ≤ maxInstrBytes := by
  obtain h | h | h := d.modrmLength_cases <;> rw [h] <;> decide

/-- Settles O40: a clause per place of R133's order, each the decoder's branch with the failing fetch in it. -/
theorem fetchFaultOrder : Obligations.FetchFaultOrder := by
  rintro s pc size op b rfl rfl rfl rfl
  obtain ⟨_, _, hunimplemented⟩ := unimplementedOpcodes
  refine ⟨fun hsize => ?opcode, hunimplemented s, fun hpc hop hsize => ?modrm, fun hpc hop hmode hrm => ?sib,
    fun hpc hop hmode hrm hsize => ?disp8, fun hpc hop hform hsize => ?disp32, fun d hpc hop hd hreg hsize => ?imm8,
    fun d hpc hop hd hsize => ?imm32, fun hpc hop hsize => ?rel32, fun hpc hop hsize => ?rel8⟩
  case opcode =>
    refine step_of_decode_error (e := .outside 0 .byte) ?_
    rw [decode, fetchByte_instrBytes_outside (by decide) hsize]
    rfl
  case modrm =>
    refine step_of_decode_error (e := .outside 1 .byte) (decode_of_decodeModRM_error (getElem?_zero_instrBytes hpc) hop ?_)
    rw [decodeModRM, fetchByte_instrBytes_outside (by decide) hsize]
    rfl
  case sib =>
    rw [addressingFaultsExactly]
    exact ⟨hpc, hop, rfl, hrm.symm, hmode, rfl⟩
  case disp8 =>
    refine step_of_decode_error (e := .outside 2 .byte)
      (decode_of_decodeModRM_error (getElem?_zero_instrBytes (by omega)) hop ?_)
    rw [decodeModRM_disp8 (getElem?_one_instrBytes hpc) hmode hrm, fetchByte_instrBytes_outside (by decide) hsize]
    rfl
  case disp32 =>
    refine step_of_decode_error (e := .outside 2 .dword)
      (decode_of_decodeModRM_error (getElem?_zero_instrBytes (by omega)) hop ?_)
    have hfetch := fetchDword_instrBytes_outside (s := s) (k := 2) (by decide) hsize
    obtain ⟨hmode, hrm⟩ | ⟨hmode, hrm⟩ := hform
    · rw [decodeModRM_disp32 (getElem?_one_instrBytes hpc) hmode hrm, hfetch]
      rfl
    · rw [decodeModRM_absolute (getElem?_one_instrBytes hpc) hmode hrm, hfetch]
      rfl
  case imm8 =>
    have hmax : 1 + d.rm.modrmLength + 1 ≤ maxInstrBytes := le_trans (by omega) (immediate_le_maxInstrBytes d.rm)
    rw [Nat.add_assoc] at hsize ⊢
    refine step_of_decode_error (e := .outside (1 + d.rm.modrmLength) .byte) ?_
    rw [decode_0x83 (hop ▸ getElem?_zero_instrBytes hpc), hd]
    simp only [bind, Except.bind, if_pos hreg, fetchByte_instrBytes_outside hmax hsize]
  case imm32 =>
    rw [Nat.add_assoc _ 1] at hsize ⊢
    refine step_of_decode_error (e := .outside (1 + d.rm.modrmLength) .dword) ?_
    rw [decode_0xC7 (hop ▸ getElem?_zero_instrBytes hpc), hd]
    simp only [bind, Except.bind, fetchDword_instrBytes_outside (immediate_le_maxInstrBytes d.rm) hsize]
  case rel32 =>
    refine step_of_decode_error (e := .outside 1 .dword) ?_
    rw [decode_0xE9 (hop ▸ getElem?_zero_instrBytes hpc), fetchDword_instrBytes_outside (by decide) hsize]
    rfl
  case rel8 =>
    refine step_of_decode_error (e := .outside 1 .byte) ?_
    rw [decode_0xEB (hop ▸ getElem?_zero_instrBytes hpc), fetchByte_instrBytes_outside (by decide) hsize]
    rfl

/-! ### Bounds faults -/

/-- An error of the computation that names an access names one of the first ten bytes that runs past the end of `bs`. -/
def FailsOutside {α : Type} (bs : List Byte) (x : Except DecodeError α) : Prop :=
  ∀ k n, x = .error (.outside k n) → k + n.bytes ≤ maxInstrBytes ∧ bs.length < k + n.bytes

section
variable {bs : List Byte} {α β : Type}

theorem FailsOutside.pure (a : α) : FailsOutside bs (.ok a) := nofun

theorem FailsOutside.addressing {mode : BitVec 2} {rm : BitVec 3} :
    FailsOutside bs (.error (.addressing mode rm) : Except DecodeError α) := nofun

theorem FailsOutside.opcode {op : Byte} {ext : Option (BitVec 3)} :
    FailsOutside bs (.error (.opcode op ext) : Except DecodeError α) := nofun

theorem FailsOutside.bind {x : Except DecodeError α} {f : α → Except DecodeError β} (hx : FailsOutside bs x)
    (hf : ∀ a, FailsOutside bs (f a)) : FailsOutside bs (x >>= f) := by
  intro k n h
  obtain h | ⟨a, _, h⟩ := except_bind_eq_error.1 h
  · exact hx k n h
  · exact hf a k n h

theorem FailsOutside.fetchByte {k : Nat} (hk : k + 1 ≤ maxInstrBytes) : FailsOutside bs (fetchByte bs k) := by
  intro j n h
  cases fetchByte_eq_error h
  refine ⟨hk, Nat.lt_of_not_le fun hlen => ?_⟩
  change k + 1 ≤ bs.length at hlen
  cases (fetchByte_eq_ok.2 (List.getElem?_eq_getElem hlen)).symm.trans h

theorem FailsOutside.fetchDword {k : Nat} (hk : k + 4 ≤ maxInstrBytes) : FailsOutside bs (fetchDword bs k) := by
  intro j n h
  cases fetchDword_eq_error h
  refine ⟨hk, Nat.lt_of_not_le fun hlen => ?_⟩
  change k + 4 ≤ bs.length at hlen
  have hok : Sys2Proof.fetchDword bs k = .ok (le32 bs[k] bs[k + 1] bs[k + 2] bs[k + 3]) :=
    fetchDword_eq_ok.2 ⟨_, _, _, _, List.getElem?_eq_getElem _, List.getElem?_eq_getElem _,
      List.getElem?_eq_getElem _, List.getElem?_eq_getElem _, rfl⟩
  cases hok.symm.trans h

theorem FailsOutside.ite {c : Prop} [Decidable c] {x y : Except DecodeError α} (hx : FailsOutside bs x)
    (hy : FailsOutside bs y) : FailsOutside bs (if c then x else y) := by
  split_ifs
  · exact hx
  · exact hy

theorem FailsOutside.decodeModRM : FailsOutside bs (decodeModRM bs) :=
  .bind (.fetchByte (by decide)) fun _ =>
    .ite .addressing <|
    .ite (.bind (.fetchDword (by decide)) fun _ => .pure _) <|
    .ite (.bind (.fetchDword (by decide)) fun _ => .pure _) <|
    .ite (.bind (.fetchByte (by decide)) fun _ => .pure _) <|
    .ite (.pure _) (.pure _)

/-- The decoder names only accesses it could not make, within the ten bytes of an instruction: a line per branch of the
dispatcher. -/
theorem FailsOutside.decode : FailsOutside bs (decode bs) :=
  have himm8 (d : RM32) : 1 + d.modrmLength + 1 ≤ maxInstrBytes := le_trans (by omega) (immediate_le_maxInstrBytes d)
  .bind (.fetchByte (by decide)) fun _ =>
    .ite (.bind .decodeModRM fun _ => .pure _) <|
    .ite (.bind .decodeModRM fun d => .ite (.bind (.fetchByte (himm8 d.rm)) fun _ => .pure _) .opcode) <|
    .ite (.bind .decodeModRM fun _ => .pure _) <|
    .ite (.bind .decodeModRM fun _ => .pure _) <|
    .ite (.bind (.fetchDword (by decide)) fun _ => .pure _) <|
    .ite (.bind .decodeModRM fun d => .bind (.fetchDword (immediate_le_maxInstrBytes d.rm)) fun _ => .pure _) <|
    .ite (.bind (.fetchDword (by decide)) fun _ => .pure _) <|
    .ite (.bind (.fetchByte (by decide)) fun _ => .pure _) <|
    .ite (.bind .decodeModRM fun _ => .ite (.pure _) .opcode) .opcode

end

theorem length_bytesFrom (m : Memory) (a n : Nat) : (bytesFrom m a n).length = min n (m.size - a) := by
  induction n generalizing a with
  | zero => simp [bytesFrom]
  | succ n ih =>
    rw [bytesFrom]
    split_ifs
    · rw [List.length_cons, ih]
      omega
    · rw [List.length_nil]
      omega

/-- The two ways an instruction faults: it reads a memory operand that leaves memory, or only writes one. -/
theorem operandFault_of_exec {s : State} {i : Instr} {f : Fault} (h : exec i s = .fault f) :
    (∃ m r imm, OperandFault .read s (.mem m) f ∧
      i ∈ [.addRm32R32 (.mem m) r, .subRm32Imm8 (.mem m) imm, .incRm32 (.mem m), .movR32Rm32 r (.mem m)]) ∨
    (∃ m r imm, OperandFault .write s (.mem m) f ∧ i ∈ [.movRm32R32 (.mem m) r, .movRm32Imm32 (.mem m) imm]) := by
  cases i with
  | addRm32R32 d r =>
    obtain ⟨m, rfl, hf⟩ := updateRM32_eq_fault.1 h
    exact .inl ⟨m, r, 0#8, ⟨m, rfl, hf⟩, by simp⟩
  | subRm32Imm8 d imm =>
    obtain ⟨m, rfl, hf⟩ := updateRM32_eq_fault.1 h
    exact .inl ⟨m, .eax, imm, ⟨m, rfl, hf⟩, by simp⟩
  | movRm32R32 d r =>
    obtain ⟨m, rfl, hf⟩ := storeRM32_eq_fault.1 h
    exact .inr ⟨m, r, 0#32, ⟨m, rfl, hf⟩, by simp⟩
  | movR32Rm32 r d =>
    obtain ⟨m, rfl, hf⟩ := execMovLoad_eq_fault.1 h
    exact .inl ⟨m, r, 0#8, ⟨m, rfl, hf⟩, by simp⟩
  | movR32Imm32 r imm => cases h
  | movRm32Imm32 d imm =>
    obtain ⟨m, rfl, hf⟩ := storeRM32_eq_fault.1 h
    exact .inr ⟨m, .eax, imm, ⟨m, rfl, hf⟩, by simp⟩
  | jmpRel32 rel => cases h
  | jmpRel8 rel => cases h
  | incRm32 d =>
    obtain ⟨m, rfl, hf⟩ := updateRM32_eq_fault.1 h
    exact .inl ⟨m, .eax, 0#8, ⟨m, rfl, hf⟩, by simp⟩

/-- Settles O43: the fault is the decoder's, whose access ran past the fetched bytes and so past memory, or an access of
the decoded instruction's operand. -/
theorem boundsFaultsAreReal : Obligations.BoundsFaultsAreReal := by
  intro s kind a n h
  obtain ⟨e, hdecode, hfault⟩ | ⟨i, hdecode, hexec⟩ := step_eq_fault.1 h
  · cases e with
    | outside k n =>
      cases hfault
      obtain ⟨hk, hlen⟩ := FailsOutside.decode k n hdecode
      rw [instrBytes, length_bytesFrom] at hlen
      have hn : 1 ≤ n.bytes := by cases n <;> decide
      exact ⟨by omega, fun _ => by omega, nofun, nofun⟩
    | addressing mode rm => cases hfault
    | opcode op ext => cases hfault
  · obtain ⟨m, r, imm, ⟨_, ⟨⟩, hsize, ⟨⟩⟩, hi⟩ | ⟨m, r, imm, ⟨_, ⟨⟩, hsize, ⟨⟩⟩, hi⟩ := operandFault_of_exec hexec
    · exact ⟨hsize, nofun, fun _ => ⟨rfl, i, m, r, imm, hdecode, rfl, hi⟩, nofun⟩
    · exact ⟨hsize, nofun, nofun, fun _ => ⟨rfl, i, m, r, imm, hdecode, rfl, hi⟩⟩

end Sys2Proof.Machine
end

section
/-! The machine's step is the spec's pseudocode (R57, R80, R84 to R86): the pseudocode's fetches are the decoder's, its
descriptor stands for the decoder's operand, and its integer sums are the machine's words. -/

namespace Sys2Proof.Machine

/-! ### Descriptors -/

/-- The pseudocode's descriptor of a decoded operand (R55, R57). -/
def descOf (d : Descriptor) : Reference.Desc :=
  match d.rm with
  | .reg r => ⟨3#2, d.reg, r.bits, 0#32, 1⟩
  | .mem (.base b) => ⟨0#2, d.reg, b.bits, 0#32, 1⟩
  | .mem (.baseDisp8 b disp) => ⟨1#2, d.reg, b.bits, sext8 disp, 2⟩
  | .mem (.baseDisp32 b disp) => ⟨2#2, d.reg, b.bits, disp, 5⟩
  | .mem (.absolute disp) => ⟨0#2, d.reg, 5#3, disp, 5⟩

@[simp] theorem descOf_reg (d : Descriptor) : (descOf d).reg = d.reg := by
  obtain ⟨reg, r | (b | ⟨b, disp⟩ | ⟨b, disp⟩ | disp)⟩ := d <;> rfl

@[simp] theorem descOf_m (d : Descriptor) : (descOf d).m = d.rm.modrmLength := by
  obtain ⟨reg, r | (b | ⟨b, disp⟩ | ⟨b, disp⟩ | disp)⟩ := d <;> rfl

section
variable (s : State)

theorem fetch1_eq {k : Nat} (hk : k + 1 ≤ maxInstrBytes) :
    Reference.fetch1 s k = (fetchByte (instrBytes s) k).mapError (decodeFault s.pc) :=
  (mapError_fetchByte_instrBytes s hk).symm

theorem fetch4_eq {k : Nat} (hk : k + 4 ≤ maxInstrBytes) :
    Reference.fetch4 s k = (fetchDword (instrBytes s) k).mapError (decodeFault s.pc) :=
  (mapError_fetchDword_instrBytes s hk).symm

/-- The pseudocode decodes the ModRM bytes to the descriptor of what the decoder decodes them to, and fails where the
decoder does. -/
theorem reference_decodeModRM_eq :
    Reference.decodeModRM s = ((decodeModRM (instrBytes s)).mapError (decodeFault s.pc)).map descOf := by
  simp only [Reference.decodeModRM, fetch1_eq s (k := 1) (by decide), fetch1_eq s (k := 2) (by decide),
    fetch4_eq s (k := 2) (by decide)]
  cases hb : fetchByte (instrBytes s) 1 with
  | error e =>
    rw [decodeModRM, hb]
    rfl
  | ok b =>
    have hb := fetchByte_eq_ok.1 hb
    simp only [Except.mapError, bind, Except.bind, show b.extractLsb' 6 2 = modeField b from rfl,
      show b.extractLsb' 3 3 = regField b from rfl, show b.extractLsb' 0 3 = rmField b from rfl]
    obtain ⟨hmode, hrm⟩ | ⟨hmode, hrm⟩ | ⟨hmode, h4, h5⟩ | ⟨hmode, h4⟩ | ⟨hmode, h4⟩ | hmode :=
      modrm_cases (modeField b) (rmField b)
    · rw [decodeModRM_sib hb hmode hrm, if_pos ⟨hmode, hrm⟩]
      rfl
    · rw [decodeModRM_absolute hb hmode hrm]
      cases fetchDword (instrBytes s) 2 <;> simp [hmode, hrm, descOf, bind, Except.bind, pure, Except.pure, Except.map]
    · simp [decodeModRM_base hb hmode h4 h5, hmode, h4, h5, descOf, pure, Except.pure, Except.map]
    · rw [decodeModRM_disp8 hb hmode h4]
      cases fetchByte (instrBytes s) 2 <;> simp [hmode, h4, descOf, bind, Except.bind, pure, Except.pure, Except.map]
    · rw [decodeModRM_disp32 hb hmode h4]
      cases fetchDword (instrBytes s) 2 <;> simp [hmode, h4, descOf, bind, Except.bind, pure, Except.pure, Except.map]
    · simp [decodeModRM_register hb hmode, hmode, descOf, pure, Except.pure, Except.map]

/-! ### Operands -/

section
variable {s} {d : Descriptor} (hwf : d.rm.wellFormed = true)
include hwf

/-- A well-formed operand has the address R84 gives its descriptor. -/
theorem reference_effectiveAddress_eq {m : MemOperand} (hm : d.rm = .mem m) :
    Reference.effectiveAddress s (descOf d) = (effectiveAddress s m).toNat := by
  obtain ⟨reg, rm⟩ := d
  cases hm
  cases m with
  | base b =>
    have hb : b ≠ .ebp := (by simpa [RM32.wellFormed, MemOperand.wellFormed] using hwf : b ≠ .esp ∧ b ≠ .ebp).2
    simp [descOf, Reference.effectiveAddress, effectiveAddress, Reference.x, Reg.bits_eq_five_iff, hb]
  | baseDisp8 b disp => simp [descOf, Reference.effectiveAddress, effectiveAddress, Reference.x, BitVec.toNat_add]
  | baseDisp32 b disp => simp [descOf, Reference.effectiveAddress, effectiveAddress, Reference.x, BitVec.toNat_add]
  | absolute disp => simp [descOf, Reference.effectiveAddress, effectiveAddress]

theorem reference_readRM32_eq : Reference.readRM32 s (descOf d) = readRM32 s d.rm := by
  cases hrm : d.rm with
  | reg r => simp [Reference.readRM32, readRM32, descOf, hrm, Reference.x]
  | mem m =>
    have hmode : (descOf d).mode ≠ 3#2 := by cases m <;> simp [descOf, hrm]
    rw [Reference.readRM32, if_neg hmode, reference_effectiveAddress_eq hwf hrm, readRM32]

theorem reference_writeRM32_eq (v : Word) : Reference.writeRM32 s (descOf d) v = writeRM32 s d.rm v := by
  cases hrm : d.rm with
  | reg r => simp [Reference.writeRM32, writeRM32, descOf, hrm]
  | mem m =>
    have hmode : (descOf d).mode ≠ 3#2 := by cases m <;> simp [descOf, hrm]
    rw [Reference.writeRM32, if_neg hmode, reference_effectiveAddress_eq hwf hrm, writeRM32]

end

/-! ### Meanings -/

/-- A `pc` reached by an integer sum is the one the machine reaches modulo 2^32. -/
theorem thenPc_eq {target : Int} {n : Nat} (h : target = s.pc.toNat + n) (t : State) :
    Reference.thenPc target t = t.setPc (s.pc + BitVec.ofNat 32 n) := by
  rw [Reference.thenPc, h, BitVec.ofInt_add, BitVec.ofInt_natCast, BitVec.ofInt_natCast, BitVec.ofNat_toNat,
    BitVec.setWidth_eq]

/-- A jump's `pc` is the machine's sum of words, since the offset is added as the signed number its word is. -/
theorem thenPc_add_toInt {target : Int} {n : Nat} {offset : Word} (h : target = s.pc.toNat + n + offset.toInt) (t : State) :
    Reference.thenPc target t = t.setPc (s.pc + BitVec.ofNat 32 n + offset) := by
  rw [Reference.thenPc, h, BitVec.ofInt_add, BitVec.ofInt_add, BitVec.ofInt_natCast, BitVec.ofInt_natCast,
    BitVec.ofNat_toNat, BitVec.setWidth_eq, BitVec.ofInt_toInt]

theorem ofNat_toNat_add (a b : Word) : BitVec.ofNat 32 (a.toNat + b.toNat) = a + b := by
  rw [BitVec.ofNat_add, BitVec.ofNat_toNat, BitVec.ofNat_toNat, BitVec.setWidth_eq, BitVec.setWidth_eq]

theorem ofInt_toNat_sub (a b : Word) : BitVec.ofInt 32 (a.toNat - b.toNat) = a - b := by
  rw [Int.sub_eq_add_neg, BitVec.ofInt_add, BitVec.ofInt_neg, BitVec.ofInt_natCast, BitVec.ofInt_natCast,
    BitVec.ofNat_toNat, BitVec.ofNat_toNat, BitVec.setWidth_eq, BitVec.setWidth_eq, BitVec.sub_eq_add_neg]

section
variable {s} {d : Descriptor} {target : Int} {len : Nat}

/-- The pseudocode's read-modify-write is the machine's, if it computes the same words and moves `pc` as far. -/
theorem updateRM32_eq_reference (hwf : d.rm.wellFormed = true) {f g : Word → Word} (hg : ∀ a, g a = f a)
    (htarget : target = s.pc.toNat + len) : updateRM32 s d.rm f len = finish (do
      let a ← Reference.readRM32 s (descOf d)
      let t ← Reference.writeRM32 s (descOf d) (g a)
      return Reference.thenPc target t) := by
  simp only [updateRM32, reference_readRM32_eq hwf, reference_writeRM32_eq hwf, hg, thenPc_eq s htarget]
  cases hr : readRM32 s d.rm with
  | error e => rfl
  | ok a =>
    simp only [bind, Except.bind]
    cases hw : writeRM32 s d.rm (f a) with
    | error e => rfl
    | ok t =>
      obtain ⟨_, rfl⟩ := writeRM32_eq_ok.1 hw
      rw [← writtenRM32_pc s d.rm (f a)]
      rfl

/-- The pseudocode's store is the machine's, if it moves `pc` as far. -/
theorem storeRM32_eq_reference (hwf : d.rm.wellFormed = true) {v : Word} (htarget : target = s.pc.toNat + len) :
    storeRM32 s d.rm v len = finish (do
      let t ← Reference.writeRM32 s (descOf d) v
      return Reference.thenPc target t) := by
  simp only [storeRM32, reference_writeRM32_eq hwf, thenPc_eq s htarget]
  cases hw : writeRM32 s d.rm v with
  | error e => rfl
  | ok t =>
    obtain ⟨_, rfl⟩ := writeRM32_eq_ok.1 hw
    rw [← writtenRM32_pc s d.rm v]
    rfl

/-- The pseudocode's load is the machine's, if it moves `pc` as far. -/
theorem execMovLoad_eq_reference {r : Reg} {d : RM32} (htarget : target = s.pc.toNat + (1 + d.modrmLength : Nat)) :
    execMovLoad r d s = finish (do
      let v ← readRM32 s d
      return Reference.thenPc target (s.setReg r v)) := by
  simp only [execMovLoad, thenPc_eq s htarget]
  rfl

end

/-! ### The step -/

/-- What the step makes of the decoder's answer. -/
def runDecoded : Except DecodeError Instr → Result
  | .ok i => exec i s
  | .error e => .fault (decodeFault s.pc e)

theorem step_eq_runDecoded : step s = runDecoded s (decode (instrBytes s)) := by
  rw [step, fetchDecode]
  cases decode (instrBytes s) <;> rfl

section
variable {s}

theorem runDecoded_fetchByte {k : Nat} (hk : k + 1 ≤ maxInstrBytes) {f : Byte → Except DecodeError Instr}
    {g : Byte → Except Fault State} (h : ∀ b, runDecoded s (f b) = finish (g b)) :
    runDecoded s (fetchByte (instrBytes s) k >>= f) = finish (Reference.fetch1 s k >>= g) := by
  rw [fetch1_eq s hk]
  cases fetchByte (instrBytes s) k with
  | error e => rfl
  | ok b => exact h b

theorem runDecoded_fetchDword {k : Nat} (hk : k + 4 ≤ maxInstrBytes) {f : Word → Except DecodeError Instr}
    {g : Word → Except Fault State} (h : ∀ v, runDecoded s (f v) = finish (g v)) :
    runDecoded s (fetchDword (instrBytes s) k >>= f) = finish (Reference.fetch4 s k >>= g) := by
  rw [fetch4_eq s hk]
  cases fetchDword (instrBytes s) k with
  | error e => rfl
  | ok v => exact h v

theorem runDecoded_decodeModRM {op : Byte} (h0 : (instrBytes s)[0]? = some op)
    {f : Descriptor → Except DecodeError Instr} {g : Reference.Desc → Except Fault State}
    (h : ∀ d, d.rm.wellFormed = true → runDecoded s (f d) = finish (g (descOf d))) :
    runDecoded s (decodeModRM (instrBytes s) >>= f) = finish (Reference.decodeModRM s >>= g) := by
  rw [reference_decodeModRM_eq]
  cases hd : decodeModRM (instrBytes s) with
  | error e => rfl
  | ok d => exact h d (encodeModRM_prefix_of_decodeModRM h0 hd).1

/-- The case table's row for 0xB8 to 0xBF, with the register from the low bits of the opcode byte. -/
theorem reference_dispatch_movRegImm {op : Byte} (hfam : isMovR32Imm32 op = true) :
    Reference.dispatch s op = Reference.movRegImm s (rmField op) := by
  have hrange := (isMovR32Imm32_iff op).1 hfam
  have hreg : BitVec.ofNat 3 (op.toNat - 0xB8) = rmField op := by
    rw [← toNat_rmField_of_isMovR32Imm32 hfam, BitVec.ofNat_toNat, BitVec.setWidth_eq]
  rw [Reference.dispatch, if_neg (by omega), if_neg (by omega), if_neg (by omega), if_neg (by omega), if_pos hrange, hreg]

/-- The case table's last row. -/
theorem reference_dispatch_unimplemented {op : Byte} (hop : op ∉ implementedOpcodes) :
    Reference.dispatch s op = .error (.unimplementedOpcode op none) := by
  have hrange := (unimplementedOpcodes.1 op).1 hop
  rw [Reference.dispatch, if_neg (by omega), if_neg (by omega), if_neg (by omega), if_neg (by omega),
    if_neg (by omega), if_neg (by omega), if_neg (by omega), if_neg (by omega), if_neg (by omega)]
  rfl

/-- What follows the opcode byte, one case per row of the case table (R80). -/
theorem runDecoded_eq_dispatch {op : Byte} (h0 : (instrBytes s)[0]? = some op) :
    runDecoded s (decode (instrBytes s)) = finish (Reference.dispatch s op) := by
  by_cases hop : op ∈ implementedOpcodes
  case neg =>
    rw [decode_unimplemented h0 hop, reference_dispatch_unimplemented hop]
    rfl
  obtain rfl | rfl | rfl | rfl | hfam | rfl | rfl | rfl | rfl := (mem_implementedOpcodes_iff op).1 hop
  · rw [decode_0x01 h0]
    refine runDecoded_decodeModRM h0 fun d hwf => updateRM32_eq_reference hwf (fun a => ?_) (by rw [descOf_m]; omega)
    rw [descOf_reg]
    exact ofNat_toNat_add a _
  · rw [decode_0x83 h0]
    refine runDecoded_decodeModRM h0 fun d hwf => ?_
    rw [descOf_reg]
    split_ifs with hreg
    · rw [Reference.sub, descOf_m]
      refine runDecoded_fetchByte (le_trans (by omega) (immediate_le_maxInstrBytes d.rm)) fun imm => ?_
      exact updateRM32_eq_reference hwf (fun a => ofInt_toNat_sub a _) (by omega)
    · rfl
  · rw [decode_0x89 h0]
    refine runDecoded_decodeModRM h0 fun d hwf => ?_
    rw [descOf_reg]
    exact storeRM32_eq_reference hwf (by rw [descOf_m]; omega)
  · rw [decode_0x8B h0]
    refine runDecoded_decodeModRM h0 fun d hwf => ?_
    rw [reference_readRM32_eq hwf, descOf_reg, descOf_m]
    exact execMovLoad_eq_reference (by omega)
  · rw [decode_movR32Imm32 h0 hfam, reference_dispatch_movRegImm hfam]
    refine runDecoded_fetchDword (by decide) fun imm => ?_
    exact congrArg Host.Outcome.next (thenPc_eq s (n := 5) rfl _).symm
  · rw [decode_0xC7 h0]
    refine runDecoded_decodeModRM h0 fun d hwf => ?_
    rw [descOf_m]
    refine runDecoded_fetchDword (immediate_le_maxInstrBytes d.rm) fun imm => ?_
    exact storeRM32_eq_reference hwf (by omega)
  · rw [decode_0xE9 h0]
    refine runDecoded_fetchDword (by decide) fun rel => ?_
    exact congrArg Host.Outcome.next (thenPc_add_toInt s (n := 5) rfl s).symm
  · rw [decode_0xEB h0]
    refine runDecoded_fetchByte (by decide) fun rel => ?_
    exact congrArg Host.Outcome.next (thenPc_add_toInt s (n := 2) (by rw [toInt_sext8]; rfl) s).symm
  · rw [decode_0xFF h0]
    refine runDecoded_decodeModRM h0 fun d hwf => ?_
    rw [descOf_reg]
    split_ifs with hreg
    · exact updateRM32_eq_reference hwf (fun a => ofNat_toNat_add a 1#32) (by rw [descOf_m]; omega)
    · rfl

end

/-- Settles O39: the opcode byte is the same fetch, and what follows it is the same for every opcode byte. -/
theorem stepIsThePseudocode : Obligations.StepIsThePseudocode := by
  intro s
  rw [step_eq_runDecoded, Reference.step, fetch1_eq s (by decide)]
  cases hop : fetchByte (instrBytes s) 0 with
  | error e =>
    rw [decode, hop]
    rfl
  | ok op => exact runDecoded_eq_dispatch (fetchByte_eq_ok.1 hop)

end
end Sys2Proof.Machine
end

section
/-! The contracts with the driver (R22, R160 to R166): the state after reset, the image in memory, why a run stops, and
the lines of the dump. -/

namespace Sys2Proof.Machine

/-! ### Reset and load -/

/-- Settles O49: every field is the one `State.construct` gives, and nothing is listed in memory. -/
theorem resetValues : Obligations.ResetValues := by
  refine fun size eip esp => ⟨fun r hr => ?register, rfl, rfl, fun _ => rfl, rfl, rfl⟩
  case register =>
    cases r with
    | esp => exact absurd rfl hr
    | _ => rfl

/-- Bytes laid in memory change no byte outside their addresses. -/
theorem Memory.byteAt_setBytes_of_outside {m : Memory} {a b : Nat} {bs : List Byte} (h : b < a ∨ a + bs.length ≤ b) :
    (m.setBytes a bs).byteAt b = m.byteAt b := by
  induction bs generalizing m a with
  | nil => rfl
  | cons v rest ih =>
    rw [List.length_cons] at h
    rw [Memory.setBytes]
    split_ifs
    · rw [ih (by omega), Memory.byteAt_setByte, if_neg (by omega)]
    · rfl

/-- Bytes that fit in memory read back in their order. -/
theorem Memory.byteAt_setBytes_add {m : Memory} {a i : Nat} {v : Byte} {bs : List Byte} (hfit : a + bs.length ≤ m.size)
    (hv : bs[i]? = some v) : (m.setBytes a bs).byteAt (a + i) = v := by
  induction bs generalizing m a i with
  | nil => cases hv
  | cons w rest ih =>
    rw [List.length_cons] at hfit
    rw [Memory.setBytes, if_pos (by omega)]
    cases i with
    | zero =>
      obtain rfl : w = v := Option.some.inj hv
      rw [Memory.byteAt_setBytes_of_outside (.inl (by omega)), Memory.byteAt_setByte, if_pos (Nat.add_zero a)]
    | succ i =>
      rw [← ih (m := m.setByte a w) (a := a + 1) (by rw [Memory.setByte_size]; omega) hv]
      congr 1
      omega

/-- Settles O50: an image that fits is laid down by `setBytes`, which touches its addresses alone. -/
theorem loadOverlaysImage : Obligations.LoadOverlaysImage := by
  refine fun origin image s => ⟨fun hfit => ?fits, fun hlong => if_neg (Nat.not_le.2 hlong)⟩
  case fits =>
    exact ⟨_, load_eq_next.2 ⟨hfit, rfl⟩, fun _ _ => Memory.byteAt_setBytes_add hfit,
      fun _ => Memory.byteAt_setBytes_of_outside, Memory.setBytes_size _ _ _, rfl, rfl, rfl⟩

/-! ### The end of a run -/

/-- The reason a run gives for its end is true of the state it ended in (R164). -/
def RunEnd.Justified (limit : Nat) : RunEnd → Prop
  | .stopped .limit t => limit ≤ t.pc.toNat
  | .stopped .zero t => t.pc = 0#32
  | .stopped (.fault f) t => step t = .fault f ∧ t.pc.toNat < limit
  | .running _ => True
  | .refused _ _ => False

theorem runLoop_justified (limit n : Nat) (s : State) : (runLoop limit n s).Justified limit := by
  induction n generalizing s with
  | zero => trivial
  | succ n ih =>
    rw [runLoop]
    split_ifs with hlimit
    · exact hlimit
    · cases hstep : step s with
      | fault f => exact ⟨hstep, Nat.lt_of_not_le hlimit⟩
      | refused r => exact absurd hstep (step_ne_refused s r)
      | next t =>
        dsimp only
        split_ifs with hzero
        · exact hzero
        · exact ih t

/-- Settles O51: each clause is what `RunEnd.Justified` says of that end. -/
theorem runStopsForItsReason : Obligations.RunStopsForItsReason := by
  intro limit n s t
  have hend {e : RunEnd} (h : runLoop limit n s = e) : e.Justified limit := h ▸ runLoop_justified limit n s
  exact ⟨hend, hend, fun _ => hend, fun _ => hend⟩

/-! ### The dump -/

/-- A digit stands in its alphabet, at the place it is worth. -/
theorem hexDigit_mem_and_idxOf (c : HexCase) :
    ∀ d < 16, hexDigit c d ∈ hexAlphabet c ∧ (hexAlphabet c).idxOf (hexDigit c d) = d := by
  cases c <;> decide

theorem length_hexDigits (c : HexCase) (v n : Nat) : (hexDigits c v n).length = n := by
  induction n with
  | zero => rfl
  | succ n ih => rw [hexDigits, List.length_cons, ih]

theorem mem_hexAlphabet_of_mem_hexDigits {c : HexCase} {v n : Nat} {d : Char} (h : d ∈ hexDigits c v n) :
    d ∈ hexAlphabet c := by
  induction n with
  | zero => cases h
  | succ n ih =>
    obtain rfl | h := List.mem_cons.1 h
    · exact (hexDigit_mem_and_idxOf c _ (Nat.mod_lt _ (by decide))).1
    · exact ih h

/-- Reading digits on after a value shifts it left and adds what the digits write. -/
theorem foldl_hexDigits (c : HexCase) (v n acc : Nat) :
    (hexDigits c v n).foldl (fun n d => 16 * n + (hexAlphabet c).idxOf d) acc = acc * 16 ^ n + v % 16 ^ n := by
  induction n generalizing acc with
  | zero => simp [hexDigits, Nat.mod_one]
  | succ n ih =>
    rw [hexDigits, List.foldl_cons, ih, (hexDigit_mem_and_idxOf c _ (Nat.mod_lt _ (by decide))).2, Nat.mod_pow_succ]
    ring

/-- Settles O52: the order is evaluated, FLAGS and memory are not among the values, and eight digits write a value below
16^8. -/
theorem dumpLines : Obligations.DumpLines := by
  refine ⟨fun c s => ⟨_, rfl⟩, fun c s f m => rfl,
    fun c name v => ⟨hexDigits c v.toNat 8, rfl, ?length, ?letters, ?value⟩⟩
  case length => exact length_hexDigits c v.toNat 8
  case letters => exact fun d => mem_hexAlphabet_of_mem_hexDigits
  case value =>
    rw [hexValue, foldl_hexDigits, Nat.zero_mul, Nat.zero_add]
    exact Nat.mod_eq_of_lt v.isLt

end Sys2Proof.Machine
end
